-- ==== Sys2Proof/Word.lean ====
section
/-! DEFINITION. The word and byte types of murmur3_core (R6, R7): 32-bit unsigned words and 8-bit bytes. -/

namespace Sys2Proof

/-- `u32` of R7: an unsigned 32-bit value. Every register and lane is one (R6, R20). -/
abbrev Word := BitVec 32

/-- One byte of the buffer memory (R50) or of the hex string (R31). -/
abbrev Byte := BitVec 8

end Sys2Proof
end

