-- ==== Sys2Proof/Syntax.lean ====
section
/-! DEFINITION. The thirteen commands of murmur3_core (R81 to R83). No command carries an operand (R84), so no constructor has an argument. -/

namespace Sys2Proof

/-- One constructor per row of spec/opcode_table.json, in the table's order. -/
inductive Instr
  | nop     -- R200
  | add32   -- R116
  | xor32   -- R117
  | mul32   -- R118
  | rotl32  -- R119
  | shr32   -- R120
  | init    -- R145
  | block   -- R146
  | tail    -- R161
  | final   -- R185
  | storeh  -- R201
  | hash    -- R203
  | format  -- R232
deriving DecidableEq, Repr

end Sys2Proof
end

