-- ==== Sys2Proof/Decode.lean ====
section
/-! DEFINITION. Decoding a command word (R80 to R87), total on every 32-bit word, and the encoder from the same tables. -/

namespace Sys2Proof

/-- The nine opcodes of R81. -/
inductive Opcode
  | nop | mix | init | block | tail | final | storeh | hash | format
deriving DecidableEq, Repr

/-- Why a word is no command, in the order of R253: the checks 1, 2 and 3. -/
inductive DecodeError
  | illegalOpcode
  | reservedBits
  | reservedFunction
deriving DecidableEq, Repr

/-- OPC, bits 7:0 (R80). -/
def opcField (w : Word) : BitVec 8 := w.extractLsb' 0 8

/-- FN, bits 10:8 (R80). -/
def fnField (w : Word) : BitVec 3 := w.extractLsb' 8 3

/-- RSV, bits 31:11 (R80). -/
def rsvField (w : Word) : BitVec 21 := w.extractLsb' 11 21

/-- The opcode map of R81. -/
def Opcode.code : Opcode → BitVec 8
  | .nop    => 0x00
  | .mix    => 0x01
  | .init   => 0x10
  | .block  => 0x11
  | .tail   => 0x12
  | .final  => 0x13
  | .storeh => 0x14
  | .hash   => 0x20
  | .format => 0x30

/-- The rows of R81. -/
def Opcode.all : List Opcode := [.nop, .mix, .init, .block, .tail, .final, .storeh, .hash, .format]

/-- The opcode with this code, if the map of R81 has one. -/
def Opcode.ofCode (c : BitVec 8) : Option Opcode := Opcode.all.find? (fun o => o.code == c)

/-- The mixer function map of R82; FN 5, 6 and 7 are reserved. -/
def mixFunction (fn : BitVec 3) : Option Instr :=
  match fn.toNat with
  | 0 => some .add32
  | 1 => some .xor32
  | 2 => some .mul32
  | 3 => some .rotl32
  | 4 => some .shr32
  | _ => none

/-- The command of an opcode other than MIX, whose FN must be 0 (R80, R85). -/
def withZeroFunction (i : Instr) (fn : BitVec 3) : Option Instr := if fn = 0 then some i else none

/-- The command selected by (opc, fn), or none where FN is reserved under this opcode (R85, R86). -/
def Opcode.select : Opcode → BitVec 3 → Option Instr
  | .nop    => withZeroFunction .nop
  | .mix    => mixFunction
  | .init   => withZeroFunction .init
  | .block  => withZeroFunction .block
  | .tail   => withZeroFunction .tail
  | .final  => withZeroFunction .final
  | .storeh => withZeroFunction .storeh
  | .hash   => withZeroFunction .hash
  | .format => withZeroFunction .format

/-- R85: the checks in the order of R253, then the command. -/
def decode (w : Word) : Except DecodeError Instr :=
  match Opcode.ofCode (opcField w) with
  | none => .error .illegalOpcode
  | some o =>
    if rsvField w ≠ 0 then .error .reservedBits
    else
      match o.select (fnField w) with
      | none => .error .reservedFunction
      | some i => .ok i

/-- The row of R81 a command belongs to. -/
def Instr.opcode : Instr → Opcode
  | .nop => .nop
  | .add32 | .xor32 | .mul32 | .rotl32 | .shr32 => .mix
  | .init => .init
  | .block => .block
  | .tail => .tail
  | .final => .final
  | .storeh => .storeh
  | .hash => .hash
  | .format => .format

/-- The FN of a command: R82 under MIX, 0 elsewhere (R80). -/
def Instr.fn : Instr → BitVec 3
  | .xor32 => 1
  | .mul32 => 2
  | .rotl32 => 3
  | .shr32 => 4
  | .nop | .add32 | .init | .block | .tail | .final | .storeh | .hash | .format => 0

/-- The command word: RSV = 0, FN and OPC in their places (R80). -/
def encode (i : Instr) : Word := (0 : BitVec 21) ++ i.fn ++ i.opcode.code

/-- The command word of an opcode table row whose bits are `w`: the low 32 bits of what the table gives (R87: a command is one 32-bit word; log 12). -/
def tableWord (nbits w : Nat) : Word := BitVec.ofNat 32 (w % 2 ^ nbits)

/-- What the decoder reads from a row of spec/opcode_table.json. -/
def decodeTableWord (nbits w : Nat) : Option Instr :=
  match decode (tableWord nbits w) with
  | .ok i => some i
  | .error _ => none

end Sys2Proof
end

