-- ==== Sys2Proof/Config.lean ====
section
/-! DEFINITION. What a launch fixes (R290): the capacity parameter `m`, the host's accesses to the block, and what a host read returned. The spec leaves no value free, so there is no free value here. -/

namespace Sys2Proof

/-- The parameter `m` of R6 and R30: `CAP = 2^m` with `12 ≤ m ≤ 32`, fixed for a launch. The bounds are part of the value, since no launch has another. -/
structure LogCap where
  m  : Nat
  lo : 12 ≤ m
  hi : m ≤ 32
deriving DecidableEq, Repr

/-- The `m` of `State.reset`: 12, the smallest the spec allows and the one its host programs use (95_test_vectors.md). DESIGN CHOICE, log 1: the spec leaves `m` open. Statements are about every state, so about every `m`. -/
def Config.resetLogCap : LogCap := ⟨12, by decide, by decide⟩

/-- One access by the host (R295). A register access names its byte offset and its width in bytes, so that the accesses R35 leaves outside the spec can be written down and refused. A command is the 4-byte write to offset 0 (R23). -/
inductive HostOp
  | regWrite (off width : Nat) (v : Word)
  | regRead (off width : Nat)
  | memWrite (addr : Nat) (bytes : List Byte)
  | memRead (addr len : Nat)
deriving DecidableEq, Repr

/-- What a host read returned: the value of a register at an offset, or bytes of the buffer memory (R293, R295). -/
inductive HostReply
  | reg (off : Nat) (v : Word)
  | bytes (addr : Nat) (bs : List Byte)
deriving DecidableEq, Repr

end Sys2Proof
end

