-- ==== Sys2Proof/Machine/State.lean ====
section
/-! DEFINITION. The state of murmur3_core (R20 to R38), the launch that holds it (R290), the reasons a step can stop, and reset (R38, R280, R281). -/

namespace Sys2Proof.Machine

/-- STATUS.ERR (R24, R250). The values 4 to 15 are never produced, so they are no value of the type. -/
inductive ErrCode
  | ok
  | illegalOpcode
  | reservedField
  | range
deriving DecidableEq, Repr

/-- The four lanes `(h1, h2, h3, h4)` (R27). -/
structure Lanes where
  h1 : Word
  h2 : Word
  h3 : Word
  h4 : Word
deriving DecidableEq, Repr

/-- The four k words `(k1, k2, k3, k4)` (R28). -/
structure KWords where
  k1 : Word
  k2 : Word
  k3 : Word
  k4 : Word
deriving DecidableEq, Repr

/-- The index of a lane, 1 to 4 (R141). -/
inductive Lane
  | l1 | l2 | l3 | l4
deriving DecidableEq, Repr

/-- The names of the register map (R22). The offsets 0x6C to 0xFC have no name (R32). -/
inductive Reg
  | cmd | status | seed | len
  | h1 | h2 | h3 | h4
  | k1 | k2 | k3 | k4
  | mixA | mixB | mixY
  | capacity
  | hex (j : Fin 11)
deriving DecidableEq, Repr

/-- The buffer memory (R50): the bytes that are not `unlistedByte`, addresses strictly rising. -/
abbrev Memory := List Host.Cell

/-- What a byte no cell lists holds. DESIGN CHOICE, log 2: R281 makes the contents at launch an input, and any contents can be listed. -/
def Memory.unlistedByte : Byte := 0x00

/-- The canonical form: addresses strictly rising, no cell equal to what an unlisted address reads as. -/
abbrev Memory.wf (m : Memory) : Prop :=
  m.Pairwise (fun c d => c.1 < d.1) ∧ ∀ c ∈ m, c.2 ≠ Memory.unlistedByte

/-- The register file and the buffer memory (R20), with the host program still to run (R290) and the values its reads returned (R293). CMD holds nothing (R23). -/
structure State where
  err      : ErrCode          -- STATUS.ERR, R24
  seed     : Word             -- SEED, R25
  len      : Word             -- LEN, R26
  h        : Lanes            -- H1 to H4, R27
  k        : KWords           -- K1 to K4, R28
  mixA     : Word             -- MIX_A, R29
  mixB     : Word             -- MIX_B, R29
  mixY     : Word             -- MIX_Y, R29
  capacity : LogCap           -- CAPACITY.LOG2CAP, R30
  hex      : Vector Word 11   -- HEX0 to HEX10, R31
  mem      : Memory           -- the buffer memory, R50
  host     : List HostOp      -- the host statements still to run, the next one first, R290 (log 3)
  replies  : List HostReply   -- what the host's reads returned, oldest first, R293 (log 7)
deriving DecidableEq, Repr

/-- Why a step stops with a fault. -/
inductive Fault
  /-- Raised by a host access to the buffer memory that reaches an address at or above `CAP` (R50: the buffer has the addresses 0 to CAP - 1). Safe: the model stops where the spec gives no behaviour (log 5). -/
  | bufferAddressAbsent
deriving DecidableEq, Repr

/-- Why a step is refused. -/
inductive Refusal
  /-- Raised by `exec` for an instruction without a meaning; no instruction of this model is one. Safe. -/
  | notModelled (mnemonic : String)
  /-- Raised by a host register access that is not 32 bits wide (R35: a model refuses it). Safe (log 6). -/
  | regAccessWidth
  /-- Raised by a host register access beyond offset 0xFF (R35: within 0x00 to 0xFF). Safe (log 6). -/
  | regAccessOutsideWindow
  /-- Raised by a host register access at an offset that is no multiple of 4 (R35). Safe (log 6). -/
  | regAccessMisaligned
deriving DecidableEq, Repr

/-- R280, R281: every register to its value of R38. CAPACITY stays the launch's, the buffer memory is not changed; the launch's host program and replies are no registers. -/
def State.resetRegisters (s : State) : State :=
  { s with
    err := .ok
    seed := 0, len := 0
    h := ⟨0, 0, 0, 0⟩
    k := ⟨0, 0, 0, 0⟩
    mixA := 0, mixB := 0, mixY := 0
    hex := #v[0, 0, 0, 0, 0, 0, 0, 0, 0, 0, 0] }

/-- R290: the state in which a launch with capacity `c`, initial buffer memory `mem` and host program `prog` begins: right after reset (R38, R280). -/
def State.launch (c : LogCap) (mem : Memory) (prog : List HostOp) : State where
  err := .ok
  seed := 0
  len := 0
  h := ⟨0, 0, 0, 0⟩
  k := ⟨0, 0, 0, 0⟩
  mixA := 0
  mixB := 0
  mixY := 0
  capacity := c
  hex := #v[0, 0, 0, 0, 0, 0, 0, 0, 0, 0, 0]
  mem := mem
  host := prog
  replies := []

/-- The machine right after reset (R38), with nothing listed in memory (log 2), the smallest capacity (log 1) and no host program (log 3). -/
def State.reset : State := State.launch Config.resetLogCap [] []

/-! The updates of one field, each with its lemmas in Laws/State.lean. -/

def State.withErr (s : State) (e : ErrCode) : State := { s with err := e }
def State.withSeed (s : State) (v : Word) : State := { s with seed := v }
def State.withLen (s : State) (v : Word) : State := { s with len := v }
def State.withH (s : State) (h : Lanes) : State := { s with h := h }
def State.withK (s : State) (k : KWords) : State := { s with k := k }
def State.withMixA (s : State) (v : Word) : State := { s with mixA := v }
def State.withMixB (s : State) (v : Word) : State := { s with mixB := v }
def State.withMixY (s : State) (v : Word) : State := { s with mixY := v }
def State.withHex (s : State) (x : Vector Word 11) : State := { s with hex := x }
def State.withMem (s : State) (m : Memory) : State := { s with mem := m }
def State.withHost (s : State) (p : List HostOp) : State := { s with host := p }
def State.withReplies (s : State) (r : List HostReply) : State := { s with replies := r }

end Sys2Proof.Machine
end

