-- ==== Sys2Proof/Machine/Flags.lean ====
section
/-! DEFINITION. The only flag-like state, STATUS.ERR (R24, R37, R250). No command computes any other flag. -/

namespace Sys2Proof.Machine

/-- The code of ERR (R250). -/
def ErrCode.code : ErrCode → BitVec 4
  | .ok => 0
  | .illegalOpcode => 1
  | .reservedField => 2
  | .range => 3

/-- STATUS as the host reads it: ERR in bits 3:0, bits 31:4 hard-wired 0 (R24). -/
def statusWord (e : ErrCode) : Word := e.code.setWidth 32

end Sys2Proof.Machine
end

