-- ==== Sys2Proof/Machine/Ops.lean ====
section
/-! DEFINITION. The shared operations: bytes of a word, the buffer memory (R52 to R58), how a command ends (R9, R250, R251), and the capacity (R30). -/

namespace Sys2Proof.Machine

/-! ## Words and bytes (R8, R52, R53) -/

/-- Byte `j` of a word, bits 8j+7 : 8j (R8). -/
def byteOf (w : Word) (j : Nat) : Byte := w.extractLsb' (8 * j) 8

/-- Little-endian assembly: `b0` is bits 7:0 and `b3` is bits 31:24 (R52). -/
def ofBytes (b0 b1 b2 b3 : Byte) : Word := b3 ++ b2 ++ b1 ++ b0

/-! ## The buffer memory -/

/-- The byte at an address. -/
def readByte : Memory → Nat → Byte
  | [], _ => Memory.unlistedByte
  | c :: m, a => if c.1 = a then c.2 else readByte m a

/-- The memory without an entry for address `a`. -/
def eraseByte : Memory → Nat → Memory
  | [], _ => []
  | c :: m, a => if c.1 = a then eraseByte m a else c :: eraseByte m a

/-- `c` put before the first cell of a greater address. -/
def insertCell (c : Host.Cell) : Memory → Memory
  | [] => [c]
  | d :: m => if c.1 < d.1 then c :: d :: m else d :: insertCell c m

/-- One byte stored; a byte equal to what an unlisted address reads as is not listed. -/
def writeByte (m : Memory) (a : Nat) (v : Byte) : Memory :=
  if v = Memory.unlistedByte then eraseByte m a else insertCell (a, v) (eraseByte m a)

/-- `MemRead(a, 4)` (R8, R52). -/
def readWord (m : Memory) (a : Nat) : Word :=
  ofBytes (readByte m a) (readByte m (a + 1)) (readByte m (a + 2)) (readByte m (a + 3))

/-- `MemWrite(a, 4, v)` (R8, R53). -/
def writeWord (m : Memory) (a : Nat) (v : Word) : Memory :=
  writeByte (writeByte (writeByte (writeByte m a (byteOf v 0)) (a + 1) (byteOf v 1)) (a + 2) (byteOf v 2)) (a + 3) (byteOf v 3)

/-- A run of bytes stored from `a` on, in ascending order (R88 MEMB). -/
def writeBytes (m : Memory) (a : Nat) : List Byte → Memory
  | [] => m
  | b :: bs => writeBytes (writeByte m a b) (a + 1) bs

/-- The `n` bytes from `a` on (R295 buffer read). -/
def readBytes (m : Memory) (a n : Nat) : List Byte := (List.range n).map (fun j => readByte m (a + j))

/-- The header write of STOREH and HASH: words 0, 4, 8, 12 in this order (R201, R203). -/
def storeHeader (m : Memory) (h : Lanes) : Memory :=
  writeWord (writeWord (writeWord (writeWord m 0 h.h1) 4 h.h2) 8 h.h3) 12 h.h4

/-- The payload starts behind the 16-byte header (R6, R51). -/
def payloadStart : Nat := 16

/-- The length of the header in bytes (R6, R51). -/
def headerBytes : Nat := 16

/-- `CAP = 2^m` (R6). -/
def State.cap (s : State) : Nat := 2 ^ s.capacity.m

/-! ## How a command ends -/

/-- `raise CmdError(code)` (R9, R251): ERR is written, nothing else changes, and the command ends; the block goes on with the next host access. There is no trap, so nothing is saved and there is nothing to return from (R254, R255). -/
def raiseCmdError (code : ErrCode) (s : State) : Host.Outcome State Fault Refusal := .next (s.withErr code)

/-- A command whose rule completes: its effect, and `x[STATUS].ERR <- OK` (R85, R250). No effect reads or writes ERR, so the order of the two does not matter. -/
def complete (s : State) (effect : State → State) : Host.Outcome State Fault Refusal := .next (effect (s.withErr .ok))

end Sys2Proof.Machine
end

