-- ==== Sys2Proof/WellFormed.lean ====
section
/-! DEFINITION. Which instructions and host accesses are well formed. A command has no operand, so every `Instr` is (R83, R84); a register access is 32 bits wide, aligned and inside the window (R35); a buffer access stays below `CAP` (R50). -/

namespace Sys2Proof

/-- Every command is well formed: it has no field that could hold a bad value (R84). -/
def Instr.wf : Instr → Bool
  | .nop | .add32 | .xor32 | .mul32 | .rotl32 | .shr32 | .init | .block | .tail | .final | .storeh | .hash | .format => true

/-- R35: 32 bits wide, at a multiple of 4, within 0x00 to 0xFF. -/
def regAccessWf (off width : Nat) : Bool := width == 4 && off < 256 && off % 4 == 0

/-- R50: every one of the `n` bytes from `addr` on is an address of the buffer of `cap` bytes. -/
def bufferAccessWf (cap addr n : Nat) : Bool := n == 0 || addr + n ≤ cap

/-- A host access the spec gives a meaning, for a buffer of `cap` bytes. -/
def HostOp.wf (cap : Nat) : HostOp → Bool
  | .regWrite off width _ => regAccessWf off width
  | .regRead off width => regAccessWf off width
  | .memWrite addr bytes => bufferAccessWf cap addr bytes.length
  | .memRead addr len => bufferAccessWf cap addr len

end Sys2Proof
end

