-- ==== Sys2Proof/Machine/Bus.lean ====
section
/-! DEFINITION. The register window (R22 to R35) and the host's buffer accesses (R58, R88, R295). -/

namespace Sys2Proof.Machine

/-- The offset of a register (R22, R31). -/
def Reg.offset : Reg → Nat
  | .cmd => 0x00
  | .status => 0x04
  | .seed => 0x08
  | .len => 0x0C
  | .h1 => 0x10
  | .h2 => 0x14
  | .h3 => 0x18
  | .h4 => 0x1C
  | .k1 => 0x20
  | .k2 => 0x24
  | .k3 => 0x28
  | .k4 => 0x2C
  | .mixA => 0x30
  | .mixB => 0x34
  | .mixY => 0x38
  | .capacity => 0x3C
  | .hex j => 0x40 + 4 * j.val

/-- The register map's rows (R22). -/
def Reg.all : List Reg :=
  [.cmd, .status, .seed, .len, .h1, .h2, .h3, .h4, .k1, .k2, .k3, .k4, .mixA, .mixB, .mixY, .capacity,
   .hex 0, .hex 1, .hex 2, .hex 3, .hex 4, .hex 5, .hex 6, .hex 7, .hex 8, .hex 9, .hex 10]

/-- The register at an offset; none at a reserved one (R22, R32). -/
def Reg.ofOffset (off : Nat) : Option Reg := Reg.all.find? (fun r => r.offset == off)

/-- The value a host read of a register returns (R22 to R31); CMD reads 0 (R23). -/
def readReg (s : State) : Reg → Word
  | .cmd => 0
  | .status => statusWord s.err
  | .seed => s.seed
  | .len => s.len
  | .h1 => s.h.h1
  | .h2 => s.h.h2
  | .h3 => s.h.h3
  | .h4 => s.h.h4
  | .k1 => s.k.k1
  | .k2 => s.k.k2
  | .k3 => s.k.k3
  | .k4 => s.k.k4
  | .mixA => s.mixA
  | .mixB => s.mixB
  | .mixY => s.mixY
  | .capacity => BitVec.ofNat 32 s.capacity.m
  | .hex j => s.hex[j]

/-- The value a host read at an offset of the window returns; a reserved offset reads 0 (R32, R33). -/
def readOffset (s : State) (off : Nat) : Word :=
  match Reg.ofOffset off with
  | some r => readReg s r
  | none => 0

/-- A host write to a register that stores: a read-write register takes all 32 bits, a read-only one ignores the write (R34). CMD stores nothing (R23); that a write to it runs a command is `hostStep`'s. -/
def writeReg (s : State) (r : Reg) (v : Word) : State :=
  match r with
  | .seed => s.withSeed v
  | .len => s.withLen v
  | .h1 => s.withH { s.h with h1 := v }
  | .h2 => s.withH { s.h with h2 := v }
  | .h3 => s.withH { s.h with h3 := v }
  | .h4 => s.withH { s.h with h4 := v }
  | .k1 => s.withK { s.k with k1 := v }
  | .k2 => s.withK { s.k with k2 := v }
  | .k3 => s.withK { s.k with k3 := v }
  | .k4 => s.withK { s.k with k4 := v }
  | .mixA => s.withMixA v
  | .mixB => s.withMixB v
  | .cmd | .status | .mixY | .capacity | .hex _ => s

/-- Why a register access is refused, if it is (R35, log 6): width, then window, then alignment. -/
def regAccessRefusal (off width : Nat) : Option Refusal :=
  if width ≠ 4 then some .regAccessWidth
  else if 256 ≤ off then some .regAccessOutsideWindow
  else if off % 4 ≠ 0 then some .regAccessMisaligned
  else none

/-- A host read's value goes to the end of the replies (R293, log 7). -/
def State.reply (s : State) (r : HostReply) : State := s.withReplies (s.replies ++ [r])

/-- A host read of a register (R33): the value is returned and no state of the block changes. -/
def hostRegRead (off width : Nat) (s : State) : Host.Outcome State Fault Refusal :=
  match regAccessRefusal off width with
  | some r => .refused r
  | none => .next (s.reply (.reg off (readOffset s off)))

/-- A host write of bytes to the buffer memory (R58, R88 MEMB); an address at or above `CAP` does not exist (R50, log 5). -/
def hostMemWrite (addr : Nat) (bytes : List Byte) (s : State) : Host.Outcome State Fault Refusal :=
  if bufferAccessWf s.cap addr bytes.length then .next (s.withMem (writeBytes s.mem addr bytes))
  else .fault .bufferAddressAbsent

/-- A host read of bytes of the buffer memory (R58, R295). -/
def hostMemRead (addr len : Nat) (s : State) : Host.Outcome State Fault Refusal :=
  if bufferAccessWf s.cap addr len then .next (s.reply (.bytes addr (readBytes s.mem addr len)))
  else .fault .bufferAddressAbsent

end Sys2Proof.Machine
end

