-- ==== Sys2Proof/Machine/Operands.lean ====
section
/-! DEFINITION. Operand assembly (R84): every operand is a fixed register, a field of one, or a word of the buffer memory. -/

namespace Sys2Proof.Machine

/-- The rotate or shift amount `x[MIX_B][4:0]`; bits 31:5 of MIX_B are ignored (R84, R119, R120). -/
def shiftAmount (s : State) : BitVec 5 := s.mixB.extractLsb' 0 5

/-- `t = x[LEN][3:0]`, which is `x[LEN] mod 16` (R84, R161). -/
def tailCount (s : State) : Nat := (s.len.extractLsb' 0 4).toNat

/-- The four words from address `a` on, as k words (R203). -/
def readKWords (m : Memory) (a : Nat) : KWords :=
  ⟨readWord m a, readWord m (a + 4), readWord m (a + 8), readWord m (a + 12)⟩

/-- The k words of block `b`, at `16 + 16*b` (R140, R203). -/
def blockWords (m : Memory) (b : Nat) : KWords := readKWords m (payloadStart + 16 * b)

end Sys2Proof.Machine
end

