-- ==== Sys2Proof/Machine/Mixer.lean ====
section
/-! DEFINITION. murmur3_mixer: the five 32-bit primitives (R110 to R115) and the five MIX commands (R116 to R120). -/

namespace Sys2Proof.Machine

/-- R111: `(a + b) mod 2^32`. -/
def add32 (a b : Word) : Word := a + b

/-- R112: the bitwise exclusive or. -/
def xor32 (a b : Word) : Word := a ^^^ b

/-- R113: `(a * b) mod 2^32`. -/
def mul32 (a b : Word) : Word := a * b

/-- R114: rotate left by `r` in 0..31. -/
def rotl32 (x : Word) (r : BitVec 5) : Word := x.rotateLeft r.toNat

/-- R115: logical right shift by `r` in 0..31. -/
def shr32 (x : Word) (r : BitVec 5) : Word := x >>> r.toNat

/-- R116. -/
def execAdd32 (s : State) : Host.Outcome State Fault Refusal := complete s (fun t => t.withMixY (add32 s.mixA s.mixB))

/-- R117. -/
def execXor32 (s : State) : Host.Outcome State Fault Refusal := complete s (fun t => t.withMixY (xor32 s.mixA s.mixB))

/-- R118. -/
def execMul32 (s : State) : Host.Outcome State Fault Refusal := complete s (fun t => t.withMixY (mul32 s.mixA s.mixB))

/-- R119. -/
def execRotl32 (s : State) : Host.Outcome State Fault Refusal := complete s (fun t => t.withMixY (rotl32 s.mixA (shiftAmount s)))

/-- R120. -/
def execShr32 (s : State) : Host.Outcome State Fault Refusal := complete s (fun t => t.withMixY (shr32 s.mixA (shiftAmount s)))

end Sys2Proof.Machine
end

