-- ==== Sys2Proof/Machine/BlockProcessor.lean ====
section
/-! DEFINITION. murmur3_block_processor: the constants (R141), k-mixing (R142), the lane step (R143), the block function (R144), INIT (R145) and BLOCK (R146). -/

namespace Sys2Proof.Machine

/-- The first multiplier `M1_i` (R141): `c_i`. -/
def mult1 : Lane → Word
  | .l1 => 0x239b961b
  | .l2 => 0xab0e9789
  | .l3 => 0x38b34ae5
  | .l4 => 0xa1e38b93

/-- The second multiplier `M2_i = c_{(i mod 4) + 1}` (R141, C4). -/
def mult2 : Lane → Word
  | .l1 => 0xab0e9789
  | .l2 => 0x38b34ae5
  | .l3 => 0xa1e38b93
  | .l4 => 0x239b961b

/-- The k rotation `KROT_i` (R141). -/
def krot : Lane → BitVec 5
  | .l1 => 15
  | .l2 => 16
  | .l3 => 17
  | .l4 => 18

/-- The lane rotation `HROT_i` (R141). -/
def hrot : Lane → BitVec 5
  | .l1 => 19
  | .l2 => 17
  | .l3 => 15
  | .l4 => 13

/-- The additive constant `HC_i` (R141). -/
def hconst : Lane → Word
  | .l1 => 0x561ccd1b
  | .l2 => 0x0bcaa747
  | .l3 => 0x96cd1c35
  | .l4 => 0x32ac3b17

/-- R142. -/
def kmix (i : Lane) (k : Word) : Word := mul32 (rotl32 (mul32 k (mult1 i)) (krot i)) (mult2 i)

/-- R143. -/
def lanestep (i : Lane) (h k n : Word) : Word :=
  add32 (mul32 (add32 (rotl32 (xor32 h (kmix i k)) (hrot i)) n) 5) (hconst i)

/-- R144: lanes in order 1..4, each in place; lane 4 adds the h1 already updated in this pass (C3, log 9). -/
def block (h : Lanes) (k : KWords) : Lanes :=
  let h1' := lanestep .l1 h.h1 k.k1 h.h2
  let h2' := lanestep .l2 h.h2 k.k2 h.h3
  let h3' := lanestep .l3 h.h3 k.k3 h.h4
  let h4' := lanestep .l4 h.h4 k.k4 h1'
  ⟨h1', h2', h3', h4'⟩

/-- `h1=h2=h3=h4=seed` (R140, R145). -/
def seedLanes (seed : Word) : Lanes := ⟨seed, seed, seed, seed⟩

/-- R145. -/
def execInit (s : State) : Host.Outcome State Fault Refusal := complete s (fun t => t.withH (seedLanes s.seed))

/-- R146. -/
def execBlock (s : State) : Host.Outcome State Fault Refusal := complete s (fun t => t.withH (block s.h s.k))

end Sys2Proof.Machine
end

