-- ==== Sys2Proof/Machine/TailHandler.lean ====
section
/-! DEFINITION. murmur3_tail_handler: active lanes (R160), the tail function (R162) and TAIL (R161). -/

namespace Sys2Proof.Machine

/-- `THR_i` (R160). -/
def threshold : Lane → Nat
  | .l1 => 0
  | .l2 => 4
  | .l3 => 8
  | .l4 => 12

/-- `active(i, t) = (t > THR_i)` (R160). -/
abbrev active (i : Lane) (t : Nat) : Prop := threshold i < t

/-- One pass of the loop of R162: the lane takes the mixed k word if it is active. -/
def tailLane (i : Lane) (t : Nat) (h k : Word) : Word := if active i t then xor32 h (kmix i k) else h

/-- R162, in the order 4, 3, 2, 1. -/
def tail (h : Lanes) (k : KWords) (t : Nat) : Lanes :=
  let h := { h with h4 := tailLane .l4 t h.h4 k.k4 }
  let h := { h with h3 := tailLane .l3 t h.h3 k.k3 }
  let h := { h with h2 := tailLane .l2 t h.h2 k.k2 }
  { h with h1 := tailLane .l1 t h.h1 k.k1 }

/-- R161. -/
def execTail (s : State) : Host.Outcome State Fault Refusal := complete s (fun t => t.withH (tail s.h s.k (tailCount s)))

end Sys2Proof.Machine
end

