-- ==== Sys2Proof/Machine/Finalizer.lean ====
section
/-! DEFINITION. murmur3_finalizer: fmix32 (R181, R182), the cross-add (R183), finalization (R184) and FINAL (R185). -/

namespace Sys2Proof.Machine

/-- R182 with the constants of R181. -/
def fmix32 (h : Word) : Word :=
  let h := xor32 h (shr32 h 16)
  let h := mul32 h 0x85ebca6b
  let h := xor32 h (shr32 h 13)
  let h := mul32 h 0xc2b2ae35
  xor32 h (shr32 h 16)

/-- R183: sequential, h2 to h4 take the new h1. -/
def cross (h : Lanes) : Lanes :=
  let h1' := add32 (add32 (add32 h.h1 h.h2) h.h3) h.h4
  ⟨h1', add32 h.h2 h1', add32 h.h3 h1', add32 h.h4 h1'⟩

/-- A function applied to each lane independently (R184). -/
def Lanes.map (f : Word → Word) (h : Lanes) : Lanes := ⟨f h.h1, f h.h2, f h.h3, f h.h4⟩

/-- R184, the four steps of R180 in order. -/
def final (h : Lanes) (len : Word) : Lanes :=
  let h := h.map (fun x => xor32 x len)
  let h := cross h
  let h := h.map fmix32
  cross h

/-- R185. -/
def execFinal (s : State) : Host.Outcome State Fault Refusal := complete s (fun t => t.withH (final s.h s.len))

end Sys2Proof.Machine
end

