-- ==== Sys2Proof/Machine/Sequencer.lean ====
section
/-! DEFINITION. The sequencer: NOP (R200), STOREH (R201) and HASH (R202 to R208). -/

namespace Sys2Proof.Machine

/-- R200. -/
def execNop (s : State) : Host.Outcome State Fault Refusal := complete s (fun t => t)

/-- R201. -/
def execStoreh (s : State) : Host.Outcome State Fault Refusal := complete s (fun t => t.withMem (storeHeader s.mem s.h))

/-- The block loop of R203: the lanes after the blocks 0 to n - 1, in ascending order. -/
def hashBlocks (m : Memory) (h : Lanes) : Nat → Lanes
  | 0 => h
  | n + 1 => block (hashBlocks m h n) (blockWords m n)

/-- Tail word `j` of R203: read only if its lane is active, else 0 (R205). -/
def tailWord (m : Memory) (tb t : Nat) (j : Lane) (o : Nat) : Word := if active j t then readWord m (tb + o) else 0

/-- The four tail words behind the last complete block at `tb` (R203, R205). -/
def tailWords (m : Memory) (tb t : Nat) : KWords :=
  ⟨tailWord m tb t .l1 0, tailWord m tb t .l2 4, tailWord m tb t .l3 8, tailWord m tb t .l4 12⟩

/-- The lanes HASH computes over the memory `m` for length `len` and seed `seed`, the range check passed (R203). -/
def hashLanes (m : Memory) (len seed : Word) : Lanes :=
  let nb := len.toNat / 16
  let t := len.toNat % 16
  let tb := payloadStart + 16 * nb
  let h := hashBlocks m (seedLanes seed) nb
  let h := tail h (tailWords m tb t) t
  final h len

/-- R202: `16 + x[LEN] > CAP`, in unbounded integers. -/
abbrev hashOutOfRange (s : State) : Prop := s.cap < payloadStart + s.len.toNat

/-- R203. -/
def execHash (s : State) : Host.Outcome State Fault Refusal :=
  if hashOutOfRange s then raiseCmdError .range s
  else
    let h := hashLanes s.mem s.len s.seed
    complete s (fun t => (t.withH h).withMem (storeHeader s.mem h))

end Sys2Proof.Machine
end

