-- ==== Sys2Proof/Machine/HexFormatter.lean ====
section
/-! DEFINITION. hex_formatter_u32x4: hex digits (R230), the 43-character string (R231), the HEX registers (R233) and FORMAT (R232). -/

namespace Sys2Proof.Machine

/-- R230: `0x30 + n` for 0..9, `0x61 + (n - 10)` for 10..15. -/
def hexdigit (n : BitVec 4) : Byte :=
  if n.toNat ≤ 9 then BitVec.ofNat 8 (0x30 + n.toNat) else BitVec.ofNat 8 (0x61 + (n.toNat - 10))

/-- Nibble `d` of a word, the most significant first: bits 31 - 4d : 28 - 4d (R231). -/
def nibble (w : Word) (d : Nat) : BitVec 4 := w.extractLsb' (28 - 4 * d) 4

/-- The ten characters of one word: `0`, `x` and eight digits (R231). -/
def laneText (w : Word) : List Byte := 0x30 :: 0x78 :: (List.range 8).map (fun d => hexdigit (nibble w d))

/-- R231: the four words in lane order, joined by commas. -/
def fmt (w1 w2 w3 w4 : Word) : List Byte :=
  laneText w1 ++ 0x2C :: (laneText w2 ++ 0x2C :: (laneText w3 ++ 0x2C :: laneText w4))

/-- HEX_j from the string (R233); byte 43, behind the string's end, is 0x00. -/
def hexReg (str : List Byte) (j : Nat) : Word :=
  ofBytes (str.getD (4 * j) 0) (str.getD (4 * j + 1) 0) (str.getD (4 * j + 2) 0) (str.getD (4 * j + 3) 0)

/-- HEX0 to HEX10 (R31, R233). -/
def hexRegs (str : List Byte) : Vector Word 11 :=
  #v[hexReg str 0, hexReg str 1, hexReg str 2, hexReg str 3, hexReg str 4, hexReg str 5,
     hexReg str 6, hexReg str 7, hexReg str 8, hexReg str 9, hexReg str 10]

/-- R232: formats the header in memory, not H1 to H4. -/
def execFormat (s : State) : Host.Outcome State Fault Refusal :=
  complete s (fun t => t.withHex (hexRegs (fmt (readWord s.mem 0) (readWord s.mem 4) (readWord s.mem 8) (readWord s.mem 12))))

end Sys2Proof.Machine
end

