-- ==== Sys2Proof/Machine/Dispatch.lean ====
section
/-! DEFINITION. The dispatch: one arm per command, one meaning each. -/

namespace Sys2Proof.Machine

def exec (i : Instr) (s : State) : Host.Outcome State Fault Refusal :=
  match i with
  | .nop => Sys2Proof.Machine.execNop s
  | .add32 => Sys2Proof.Machine.execAdd32 s
  | .xor32 => Sys2Proof.Machine.execXor32 s
  | .mul32 => Sys2Proof.Machine.execMul32 s
  | .rotl32 => Sys2Proof.Machine.execRotl32 s
  | .shr32 => Sys2Proof.Machine.execShr32 s
  | .init => Sys2Proof.Machine.execInit s
  | .block => Sys2Proof.Machine.execBlock s
  | .tail => Sys2Proof.Machine.execTail s
  | .final => Sys2Proof.Machine.execFinal s
  | .storeh => Sys2Proof.Machine.execStoreh s
  | .hash => Sys2Proof.Machine.execHash s
  | .format => Sys2Proof.Machine.execFormat s

end Sys2Proof.Machine
end

