-- ==== Sys2Proof/Machine/Command.lean ====
section
/-! DEFINITION. A write to CMD (R23, R85), and one host access as a whole (R295). -/

namespace Sys2Proof.Machine

/-- The ERR code of a failed decode check (R85, R250). -/
def decodeErrCode : DecodeError → ErrCode
  | .illegalOpcode => .illegalOpcode
  | .reservedBits => .reservedField
  | .reservedFunction => .reservedField

/-- The host's write of `w` to CMD (R23, R85): decode, then the command as one atomic step (R292), or the error of R251. -/
def command (w : Word) (s : State) : Host.Outcome State Fault Refusal :=
  match decode w with
  | .ok i => exec i s
  | .error e => raiseCmdError (decodeErrCode e) s

/-- A host write to an aligned offset of the window (R23, R32, R34). -/
def writeOffset (off : Nat) (v : Word) (s : State) : Host.Outcome State Fault Refusal :=
  match Reg.ofOffset off with
  | some .cmd => command v s
  | some r => .next (writeReg s r v)
  | none => .next s

/-- A host write of a register (R34, R35). -/
def hostRegWrite (off width : Nat) (v : Word) (s : State) : Host.Outcome State Fault Refusal :=
  match regAccessRefusal off width with
  | some r => .refused r
  | none => writeOffset off v s

/-- One host access (R295). -/
def hostStep (op : HostOp) (s : State) : Host.Outcome State Fault Refusal :=
  match op with
  | .regWrite off width v => hostRegWrite off width v s
  | .regRead off width => hostRegRead off width s
  | .memWrite addr bytes => hostMemWrite addr bytes s
  | .memRead addr len => hostMemRead addr len s

/-- The next host access, taken off the host program; with none left the block is idle and nothing changes (R258, R282, log 4). -/
def nextAccess (s : State) : Host.Outcome State Fault Refusal :=
  match s.host with
  | [] => .next s
  | op :: rest => hostStep op (s.withHost rest)

/-- The host statement that writes the command word `w` (R88 CMDW): a 32-bit write to offset 0. -/
def commandWrite (w : Word) : HostOp := .regWrite Reg.cmd.offset 4 w

end Sys2Proof.Machine
end

