-- ==== Sys2Proof/Machine/Step.lean ====
section
/-! DEFINITION. One step of the machine: one host access (R60, R292), and where the host's next command word is placed. -/

namespace Sys2Proof.Machine

/-- One step: the next host access. -/
def step (s : State) : Host.Outcome State Fault Refusal := nextAccess s

/-- The command word put where the next step takes its host access: first in the host program (log 3, log 12). -/
def State.withFetchWord (s : State) (nbits w : Nat) : State :=
  s.withHost (commandWrite (tableWord nbits w) :: s.host)

end Sys2Proof.Machine
end

