-- ==== Sys2Proof/Machine/HostProgram.lean ====
section
/-! DEFINITION. The syntax of host programs (R88) and what each statement expands to. -/

namespace Sys2Proof.Machine

/-- The five mixer mnemonics that `MIX <op> <a>, <b>` takes (R82, R88). -/
inductive MixOp
  | add32 | xor32 | mul32 | rotl32 | shr32
deriving DecidableEq, Repr

/-- The statements and pseudo-instructions of R88. -/
inductive Stmt
  | wr (r : Reg) (v : Word)
  | rd (r : Reg)
  | memb (addr : Nat) (bytes : List Byte)
  | cmd (i : Instr)
  | cmdw (w : Word)
  | mix (op : MixOp) (a b : Word)
  | setk (k1 k2 k3 k4 : Word)
  | seth (h1 h2 h3 h4 : Word)
  | rdhex
deriving DecidableEq, Repr

/-- The command of a mixer mnemonic. -/
def MixOp.instr : MixOp → Instr
  | .add32 => .add32
  | .xor32 => .xor32
  | .mul32 => .mul32
  | .rotl32 => .rotl32
  | .shr32 => .shr32

/-- `WR <reg>, <v>` (R88). -/
def wr (r : Reg) (v : Word) : HostOp := .regWrite r.offset 4 v

/-- `RD <reg>` (R88). -/
def rd (r : Reg) : HostOp := .regRead r.offset 4

/-- The accesses of a statement, in order (R88). -/
def Stmt.expand : Stmt → List HostOp
  | .wr r v => [Sys2Proof.Machine.wr r v]
  | .rd r => [Sys2Proof.Machine.rd r]
  | .memb addr bytes => [.memWrite addr bytes]
  | .cmd i => [commandWrite (encode i)]
  | .cmdw w => [commandWrite w]
  | .mix op a b => [Sys2Proof.Machine.wr .mixA a, Sys2Proof.Machine.wr .mixB b, commandWrite (encode op.instr)]
  | .setk a b c d => [Sys2Proof.Machine.wr .k1 a, Sys2Proof.Machine.wr .k2 b, Sys2Proof.Machine.wr .k3 c, Sys2Proof.Machine.wr .k4 d]
  | .seth a b c d => [Sys2Proof.Machine.wr .h1 a, Sys2Proof.Machine.wr .h2 b, Sys2Proof.Machine.wr .h3 c, Sys2Proof.Machine.wr .h4 d]
  | .rdhex => (List.finRange 11).map (fun j => Sys2Proof.Machine.rd (.hex j))

/-- A host program as accesses. -/
def expandProgram (p : List Stmt) : List HostOp := p.flatMap Stmt.expand

/-- R207: the step commands that do what HASH does, over the payload in `m`, for the length `len`: INIT; for each block SETK and BLOCK; SETK of the tail words and TAIL; FINAL; STOREH. -/
def stepCommandSequence (m : Memory) (len : Word) : List Stmt :=
  let nb := len.toNat / 16
  let setK (k : KWords) : Stmt := .setk k.k1 k.k2 k.k3 k.k4
  [.cmd .init]
    ++ (List.range nb).flatMap (fun b => [setK (blockWords m b), .cmd .block])
    ++ [setK (tailWords m (payloadStart + 16 * nb) (len.toNat % 16)), .cmd .tail, .cmd .final, .cmd .storeh]

end Sys2Proof.Machine
end

