-- ==== Sys2Proof/Machine/Reference.lean ====
section
/-! DEFINITION. MurmurHash3 x86_128 of a byte sequence (R1, R140, R160 to R163, R180 to R184), for claims about HASH: it takes the bytes as a list, sixteen at a time, and knows no memory, no address and no padding. The block does not use it. -/

namespace Sys2Proof.Machine

/-- The little-endian word at offset `o` of a byte sequence, zero-padded behind its end (R52, R163). -/
def paddedWord (bs : List Byte) (o : Nat) : Word :=
  ofBytes (bs.getD o 0) (bs.getD (o + 1) 0) (bs.getD (o + 2) 0) (bs.getD (o + 3) 0)

/-- The four words at the head of a byte sequence (R140). -/
def headWords (bs : List Byte) : KWords := ⟨paddedWord bs 0, paddedWord bs 4, paddedWord bs 8, paddedWord bs 12⟩

/-- The lanes after the first `n` blocks of sixteen bytes (R140). -/
def digestBlocks (h : Lanes) (bs : List Byte) : Nat → Lanes
  | 0 => h
  | n + 1 => block (digestBlocks h bs n) (headWords (bs.drop (16 * n)))

/-- The 128-bit digest of a byte sequence under a seed: `floor(byteLength/16)` blocks, the 0 to 15 bytes left, finalization with the byte length. -/
def digest (bs : List Byte) (seed : Word) : Lanes :=
  let nb := bs.length / 16
  let left := bs.drop (16 * nb)
  let h := digestBlocks (seedLanes seed) bs nb
  let h := tail h (headWords left) left.length
  final h (BitVec.ofNat 32 bs.length)

end Sys2Proof.Machine
end

