-- ==== Sys2Proof/Safety.lean ====
section
/-! DEFINITION. What counts as a safe run, the invariant of every state, the premises the host owes, and the observation of a run, in the terms claims use. -/

namespace Sys2Proof.Machine

/-- The invariant of the model: the memory is in canonical form and lists only addresses of the buffer (R50), and byte 43 of the hex string is 0x00 (R31). -/
abbrev State.Inv (s : State) : Prop :=
  Memory.wf s.mem ∧ (∀ c ∈ s.mem, c.1 < s.cap) ∧ byteOf s.hex[10] 3 = 0

/-- The payload of length `x[LEN]` (R51): the input bytes of a HASH. -/
def State.payload (s : State) : List Byte := readBytes s.mem payloadStart s.len.toNat

/-- P_PAD (R66, R285): the padding bytes up to the next 4-byte boundary hold 0x00. -/
def State.PPad (s : State) : Prop :=
  ∀ a, payloadStart + s.len.toNat ≤ a → a < payloadStart + 4 * ((s.len.toNat + 3) / 4) → readByte s.mem a = 0

/-- The run of the whole host program (R293): as many steps as it has statements. -/
def State.runToEnd (s : State) : Host.Outcome State Fault Refusal := Host.Core.run Sys2Proof.core s.host.length s

/-- A host program has a run in the spec (R293, R35) if no access of it is refused or faults. -/
def State.SafeRun (s : State) : Prop := ∃ t, s.runToEnd = .next t

/-- The observation at the end of a run (R293): the register file as the host reads it, the buffer memory, and what each read returned. -/
structure Observation where
  regs    : List Word
  mem     : Memory
  replies : List HostReply
deriving DecidableEq, Repr

/-- What is observed of a state. -/
def State.observe (s : State) : Observation := ⟨Reg.all.map (readReg s), s.mem, s.replies⟩

end Sys2Proof.Machine
end

