-- ==== Sys2Proof/Certificates/Slice0/Obligations.lean ====
section
/-! DEFINITION. The statements for the provers. Spec-side formulas are written out here from the rules, in numbers or plain bit-vector operations, so that a statement does not repeat the model's own definition. -/

open Sys2Proof Sys2Proof.Machine

/-! ## Formulas of the rules, written out -/

namespace Sys2Proof.Claims

/-- The thirteen rows of R83. -/
def commandWords : List (Word × Instr) :=
  [(0x00000000, .nop), (0x00000001, .add32), (0x00000101, .xor32), (0x00000201, .mul32), (0x00000301, .rotl32),
   (0x00000401, .shr32), (0x00000010, .init), (0x00000011, .block), (0x00000012, .tail), (0x00000013, .final),
   (0x00000014, .storeh), (0x00000020, .hash), (0x00000030, .format)]

/-- R85's list of opcodes. -/
def legalOpcodes : List Nat := [0x00, 0x01, 0x10, 0x11, 0x12, 0x13, 0x14, 0x20, 0x30]

/-- The command selected by (opc, fn) (R81, R82). -/
def selected : List (Nat × Nat × Instr) :=
  [(0x00, 0, .nop), (0x01, 0, .add32), (0x01, 1, .xor32), (0x01, 2, .mul32), (0x01, 3, .rotl32), (0x01, 4, .shr32),
   (0x10, 0, .init), (0x11, 0, .block), (0x12, 0, .tail), (0x13, 0, .final), (0x14, 0, .storeh), (0x20, 0, .hash),
   (0x30, 0, .format)]

/-- `kmix_i(k)` of R142 with lane i's row of R141. -/
def kmixOf (m1 m2 : Word) (kr : Nat) (k : Word) : Word := (k * m1).rotateLeft kr * m2

/-- `lanestep_i(h, k, n)` of R143 with lane i's row of R141, the mixed k word given. -/
def laneOf (hr : Nat) (hc h mixed n : Word) : Word := ((h ^^^ mixed).rotateLeft hr + n) * 5 + hc

/-- `fmix32` of R182. -/
def fmixOf (h : Word) : Word :=
  let a := (h ^^^ (h >>> 16)) * 0x85ebca6b
  let b := (a ^^^ (a >>> 13)) * 0xc2b2ae35
  b ^^^ (b >>> 16)

/-- `cross` of R183. -/
def crossOf (h : Lanes) : Lanes :=
  let h1' := h.h1 + h.h2 + h.h3 + h.h4
  ⟨h1', h.h2 + h1', h.h3 + h1', h.h4 + h1'⟩

/-- Byte `j` of a word as a number (R8). -/
def byteNat (w : Word) (j : Nat) : Nat := w.toNat / 256 ^ j % 256

/-- Byte `a` of the header that holds the lanes `h` little-endian, for `a` in 0..15 (R53, R201). -/
def headerByte (h : Lanes) (a : Nat) : Nat :=
  if a < 4 then byteNat h.h1 a
  else if a < 8 then byteNat h.h2 (a - 4)
  else if a < 12 then byteNat h.h3 (a - 8)
  else byteNat h.h4 (a - 12)

/-- Character `c` of the string of R231 for the words `w 0` to `w 3`, and 0x00 for byte 43 (R233). -/
def hexChar (w : Nat → Word) (c : Nat) : Nat :=
  let o := c % 11
  let n := (w (c / 11)).toNat / 16 ^ (9 - o) % 16
  if c = 43 then 0x00
  else if o = 0 then 0x30
  else if o = 1 then 0x78
  else if o = 10 then 0x2C
  else if n ≤ 9 then 0x30 + n
  else 0x61 + (n - 10)

/-- What a host read at an aligned offset of the window returns (R22 to R33). -/
def registerAt (s : State) (off : Nat) : Word :=
  if off = 0x04 then (match s.err with | .ok => 0 | .illegalOpcode => 1 | .reservedField => 2 | .range => 3)
  else if off = 0x08 then s.seed
  else if off = 0x0C then s.len
  else if off = 0x10 then s.h.h1
  else if off = 0x14 then s.h.h2
  else if off = 0x18 then s.h.h3
  else if off = 0x1C then s.h.h4
  else if off = 0x20 then s.k.k1
  else if off = 0x24 then s.k.k2
  else if off = 0x28 then s.k.k3
  else if off = 0x2C then s.k.k4
  else if off = 0x30 then s.mixA
  else if off = 0x34 then s.mixB
  else if off = 0x38 then s.mixY
  else if off = 0x3C then BitVec.ofNat 32 s.capacity.m
  else if 0x40 ≤ off ∧ off ≤ 0x68 then s.hex.toList.getD ((off - 0x40) / 4) 0
  else 0

/-- What a host write at an aligned offset of the window other than 0 does (R34). -/
def registerWritten (s : State) (off : Nat) (v : Word) : State :=
  if off = 0x08 then { s with seed := v }
  else if off = 0x0C then { s with len := v }
  else if off = 0x10 then { s with h := { s.h with h1 := v } }
  else if off = 0x14 then { s with h := { s.h with h2 := v } }
  else if off = 0x18 then { s with h := { s.h with h3 := v } }
  else if off = 0x1C then { s with h := { s.h with h4 := v } }
  else if off = 0x20 then { s with k := { s.k with k1 := v } }
  else if off = 0x24 then { s with k := { s.k with k2 := v } }
  else if off = 0x28 then { s with k := { s.k with k3 := v } }
  else if off = 0x2C then { s with k := { s.k with k4 := v } }
  else if off = 0x30 then { s with mixA := v }
  else if off = 0x34 then { s with mixB := v }
  else s

/-- The HEX registers hold zero (R38) or the string of some four words (R233). -/
def HexZeroOrText (s : State) : Prop :=
  s.hex = #v[0, 0, 0, 0, 0, 0, 0, 0, 0, 0, 0] ∨
    ∃ w : Nat → Word, ∀ c < 44, byteNat (s.hex.toList.getD (c / 4) 0) (c % 4) = hexChar w c

end Sys2Proof.Claims

open Sys2Proof.Claims

/-! ## Encoding and decoding -/

/-- R83: the decoder accepts exactly the thirteen words of the table, each as its command, and the encoder gives that word. -/
def Obligations.DecodeAcceptsExactlyTheCommandWords : Prop :=
  ∀ (w : Word) (i : Instr), (decode w = .ok i ↔ w = encode i) ∧ (w = encode i ↔ (w, i) ∈ commandWords)

/-- R85, R253 (checks 1 to 3): what a write of any word to CMD does, its fields taken as numbers. -/
def Obligations.CommandWordIsDecodedInOrder : Prop :=
  ∀ (w : Word) (s : State),
    let opc := w.toNat % 256
    let fn := w.toNat / 256 % 8
    let rsv := w.toNat / 2048
    if opc ∉ legalOpcodes then command w s = .next { s with err := .illegalOpcode }
    else if rsv ≠ 0 then command w s = .next { s with err := .reservedField }
    else if opc = 0x01 ∧ (fn = 5 ∨ fn = 6 ∨ fn = 7) then command w s = .next { s with err := .reservedField }
    else if opc ≠ 0x01 ∧ fn ≠ 0 then command w s = .next { s with err := .reservedField }
    else ∃ i, (opc, fn, i) ∈ selected ∧ command w s = exec i s ∧
      ((i = .hash ∧ 2 ^ s.capacity.m < 16 + s.len.toNat) ∨ ∃ t, exec i s = .next t ∧ t.err = .ok)

/-- R83, R253 on words written out: one of each family, and the words of R253's examples. -/
def Obligations.SampleCommandWordsDecode : Prop :=
  decode 0x00000301 = .ok .rotl32 ∧ decode 0x00000011 = .ok .block ∧ decode 0x00000012 = .ok .tail ∧
  decode 0x00000013 = .ok .final ∧ decode 0x00000014 = .ok .storeh ∧ decode 0x00000020 = .ok .hash ∧
  decode 0x00000030 = .ok .format ∧
  decode 0x00000820 = .error .reservedBits ∧ decode 0xFFFFFFFF = .error .illegalOpcode ∧
  decode 0x00000501 = .error .reservedFunction

/-! ## One step -/

/-- R23, R292: when the host's next statement writes a command word that decodes to `i`, the step is `exec` of `i`, that statement taken off the host program. -/
def Obligations.StepRunsTheDecodedCommand : Prop :=
  ∀ (s : State) (w : Word) (rest : List HostOp) (i : Instr),
    s.host = .regWrite 0x00 4 w :: rest → decode w = .ok i → step s = exec i { s with host := rest }

/-- R86, R251: when the word is no command, the step changes nothing but ERR, that statement taken off the host program. -/
def Obligations.StepReportsARejectedWord : Prop :=
  ∀ (s : State) (w : Word) (rest : List HostOp) (e : DecodeError),
    s.host = .regWrite 0x00 4 w :: rest → decode w = .error e →
      step s = .next { s with host := rest, err := if e = .illegalOpcode then .illegalOpcode else .reservedField }

/-- R258, R282: with no host statement left, a step changes nothing. -/
def Obligations.IdleStepChangesNothing : Prop := ∀ s : State, s.host = [] → step s = .next s

/-- R283, R292, R293: a host program whose every access is well formed runs to its end; no command stops it. -/
def Obligations.WellFormedHostProgramRunsToItsEnd : Prop :=
  ∀ s : State, (∀ op ∈ s.host, op.wf s.cap) → ∃ t, s.runToEnd = .next t ∧ t.host = []

/-! ## The mixer -/

/-- R116 with R111. -/
def Obligations.Add32WritesTheWrappingSum : Prop :=
  decode 0x00000001 = .ok .add32 ∧
  ∀ s : State, ∃ y : Word, y.toNat = (s.mixA.toNat + s.mixB.toNat) % 2 ^ 32 ∧
    exec .add32 s = .next { s with mixY := y, err := .ok }

/-- R117 with R112. -/
def Obligations.Xor32WritesTheBitwiseXor : Prop :=
  decode 0x00000101 = .ok .xor32 ∧
  ∀ s : State, ∃ y : Word, (∀ i < 32, y.getLsbD i = (s.mixA.getLsbD i ^^ s.mixB.getLsbD i)) ∧
    exec .xor32 s = .next { s with mixY := y, err := .ok }

/-- R118 with R113. -/
def Obligations.Mul32WritesTheLowProduct : Prop :=
  decode 0x00000201 = .ok .mul32 ∧
  ∀ s : State, ∃ y : Word, y.toNat = (s.mixA.toNat * s.mixB.toNat) % 2 ^ 32 ∧
    exec .mul32 s = .next { s with mixY := y, err := .ok }

/-- R119 with R114: bit `i` of the result is bit `(i - r) mod 32` of MIX_A, for `r = MIX_B mod 32`. -/
def Obligations.Rotl32WritesTheRotation : Prop :=
  decode 0x00000301 = .ok .rotl32 ∧
  ∀ s : State, ∃ y : Word,
    (∀ i < 32, y.getLsbD i = s.mixA.getLsbD ((i + 32 - s.mixB.toNat % 32) % 32)) ∧
    exec .rotl32 s = .next { s with mixY := y, err := .ok }

/-- R120 with R115: MIX_A divided by `2^r`, for `r = MIX_B mod 32`. -/
def Obligations.Shr32WritesTheQuotient : Prop :=
  decode 0x00000401 = .ok .shr32 ∧
  ∀ s : State, ∃ y : Word, y.toNat = s.mixA.toNat / 2 ^ (s.mixB.toNat % 32) ∧
    exec .shr32 s = .next { s with mixY := y, err := .ok }

/-- R114: the arithmetic form of the rotation, and the identity at 0. -/
def Obligations.RotationHasItsArithmeticForm : Prop :=
  ∀ (x : Word) (r : BitVec 5),
    (∀ i < 32, (rotl32 x r).getLsbD i = x.getLsbD ((i + 32 - r.toNat) % 32)) ∧
    (0 < r.toNat → (rotl32 x r).toNat = x.toNat * 2 ^ r.toNat % 2 ^ 32 + x.toNat / 2 ^ (32 - r.toNat)) ∧
    rotl32 x 0 = x

/-- R113: the product from 16-bit partial products. -/
def Obligations.ProductFromSixteenBitHalves : Prop :=
  ∀ a b : Word,
    let aH := a.toNat / 2 ^ 16
    let aL := a.toNat % 2 ^ 16
    let bH := b.toNat / 2 ^ 16
    let bL := b.toNat % 2 ^ 16
    (mul32 a b).toNat = a.toNat * b.toNat % 2 ^ 32 ∧
    (mul32 a b).toNat = (aL * bL + (aH * bL + aL * bH) % 2 ^ 16 * 2 ^ 16) % 2 ^ 32

/-! ## Blocks, tail, finalization -/

/-- R145. -/
def Obligations.InitSetsEveryLaneToTheSeed : Prop :=
  decode 0x00000010 = .ok .init ∧
  ∀ s : State, exec .init s = .next { s with h := ⟨s.seed, s.seed, s.seed, s.seed⟩, err := .ok }

/-- R146 with R141 to R144 written out; lane 4 adds the h1 of this pass. -/
def Obligations.BlockMixesTheFourKWords : Prop :=
  decode 0x00000011 = .ok .block ∧
  ∀ s : State,
    let h1' := laneOf 19 0x561ccd1b s.h.h1 (kmixOf 0x239b961b 0xab0e9789 15 s.k.k1) s.h.h2
    let h2' := laneOf 17 0x0bcaa747 s.h.h2 (kmixOf 0xab0e9789 0x38b34ae5 16 s.k.k2) s.h.h3
    let h3' := laneOf 15 0x96cd1c35 s.h.h3 (kmixOf 0x38b34ae5 0xa1e38b93 17 s.k.k3) s.h.h4
    let h4' := laneOf 13 0x32ac3b17 s.h.h4 (kmixOf 0xa1e38b93 0x239b961b 18 s.k.k4) h1'
    exec .block s = .next { s with h := ⟨h1', h2', h3', h4'⟩, err := .ok }

/-- R161 with R160 and R162: each lane takes its mixed k word if `LEN mod 16` exceeds its threshold. -/
def Obligations.TailMixesTheActiveLanes : Prop :=
  decode 0x00000012 = .ok .tail ∧
  ∀ s : State,
    let t := s.len.toNat % 16
    exec .tail s = .next { s with
      h := ⟨if 0 < t then s.h.h1 ^^^ kmixOf 0x239b961b 0xab0e9789 15 s.k.k1 else s.h.h1,
            if 4 < t then s.h.h2 ^^^ kmixOf 0xab0e9789 0x38b34ae5 16 s.k.k2 else s.h.h2,
            if 8 < t then s.h.h3 ^^^ kmixOf 0x38b34ae5 0xa1e38b93 17 s.k.k3 else s.h.h3,
            if 12 < t then s.h.h4 ^^^ kmixOf 0xa1e38b93 0x239b961b 18 s.k.k4 else s.h.h4⟩,
      err := .ok }

/-- R185 with R181 to R184 written out. -/
def Obligations.FinalMixesLengthAndLanes : Prop :=
  decode 0x00000013 = .ok .final ∧
  ∀ s : State,
    let x : Lanes := ⟨s.h.h1 ^^^ s.len, s.h.h2 ^^^ s.len, s.h.h3 ^^^ s.len, s.h.h4 ^^^ s.len⟩
    let c := crossOf x
    let f : Lanes := ⟨fmixOf c.h1, fmixOf c.h2, fmixOf c.h3, fmixOf c.h4⟩
    exec .final s = .next { s with h := crossOf f, err := .ok }

/-- R142: the corner cases of the k-mixing function. -/
def Obligations.KmixCornerCases : Prop := (∀ i : Lane, kmix i 0 = 0) ∧ kmix .l1 1 = 0x9378f1b5

/-! ## The sequencer -/

/-- R200. -/
def Obligations.NopOnlyClearsErr : Prop :=
  decode 0x00000000 = .ok .nop ∧
  ∀ s : State, exec .nop s = .next { s with err := .ok }

/-- R201 with R53: the header holds the lanes little-endian, every other byte and every register but STATUS is unchanged. -/
def Obligations.StorehWritesTheHeaderOnly : Prop :=
  decode 0x00000014 = .ok .storeh ∧
  ∀ s : State, ∃ t, exec .storeh s = .next t ∧
    (∀ a < 16, (readByte t.mem a).toNat = headerByte s.h a) ∧
    (∀ a, 16 ≤ a → readByte t.mem a = readByte s.mem a) ∧
    { t with mem := s.mem } = { s with err := .ok }

/-- R202, R251: a length that does not fit gives RANGE and changes nothing else. -/
def Obligations.HashOutOfRangeOnlySetsRange : Prop :=
  ∀ s : State, 2 ^ s.capacity.m < 16 + s.len.toNat → exec .hash s = .next { s with err := .range }

/-- R203, R205, R206: a length that does not fit gives RANGE and nothing else; HASH within the range completes whatever the padding holds; `f` is the sequence of lanes the block loop runs through; the header holds the result and all else is unchanged. -/
def Obligations.HashRunsBlocksTailAndFinalization : Prop :=
  decode 0x00000020 = .ok .hash ∧
  (∀ s : State, 2 ^ s.capacity.m < 16 + s.len.toNat → exec .hash s = .next { s with err := .range }) ∧
  ∀ s : State, 16 + s.len.toNat ≤ 2 ^ s.capacity.m →
    let len := s.len.toNat
    let nb := len / 16
    let t := len % 16
    let tb := 16 + 16 * nb
    ∃ (f : Nat → Lanes) (u : State),
      f 0 = ⟨s.seed, s.seed, s.seed, s.seed⟩ ∧
      (∀ b < nb, f (b + 1) = block (f b)
        ⟨readWord s.mem (16 + 16 * b), readWord s.mem (16 + 16 * b + 4),
         readWord s.mem (16 + 16 * b + 8), readWord s.mem (16 + 16 * b + 12)⟩) ∧
      u.h = final (tail (f nb)
        ⟨if 0 < t then readWord s.mem tb else 0, if 4 < t then readWord s.mem (tb + 4) else 0,
         if 8 < t then readWord s.mem (tb + 8) else 0, if 12 < t then readWord s.mem (tb + 12) else 0⟩ t) s.len ∧
      (∀ a < 16, (readByte u.mem a).toNat = headerByte u.h a) ∧
      (∀ a, 16 ≤ a → readByte u.mem a = readByte s.mem a) ∧
      { u with h := s.h, mem := s.mem } = { s with err := .ok } ∧
      exec .hash s = .next u

/-- R290 and 95 S2: what HASH leaves in the lanes and the header is a function of SEED, LEN and the payload bytes up to the 4-byte boundary, whatever the capacity, the other registers and the other bytes hold. -/
def Obligations.HashDependsOnSeedLengthAndPayload : Prop :=
  ∀ s s' : State, s.seed = s'.seed → s.len = s'.len →
    16 + s.len.toNat ≤ s.cap → 16 + s'.len.toNat ≤ s'.cap →
    (∀ a, 16 ≤ a → a < 16 + 4 * ((s.len.toNat + 3) / 4) → readByte s.mem a = readByte s'.mem a) →
    ∃ t t', exec .hash s = .next t ∧ exec .hash s' = .next t' ∧ t.h = t'.h ∧
      ∀ a < 16, readByte t.mem a = readByte t'.mem a

/-- R1, R66, R163: with the padding zero and the length in range, HASH leaves the MurmurHash3 x86_128 digest of the payload bytes in H1 to H4 and, little-endian, in the header. -/
def Obligations.HashIsTheDigestOfThePayload : Prop :=
  ∀ s : State, 16 + s.len.toNat ≤ s.cap → s.PPad →
    ∃ t, exec .hash s = .next t ∧ t.h = digest s.payload s.seed ∧
      ∀ a < 16, (readByte t.mem a).toNat = headerByte (digest s.payload s.seed) a

/-- R207: HASH leaves the machine as INIT, SETK and BLOCK for each block, SETK of the tail words and TAIL, FINAL and STOREH do, but for K1 to K4, where the sequence leaves its last words. -/
def Obligations.HashEqualsTheStepCommandSequence : Prop :=
  ∀ s : State, 16 + s.len.toNat ≤ s.cap →
    ∃ t, exec .hash s = .next t ∧
      State.runToEnd { s with host := expandProgram (stepCommandSequence s.mem s.len) } =
        .next { t with host := [], k := tailWords s.mem (16 + 16 * (s.len.toNat / 16)) (s.len.toNat % 16) }

/-- R208, R184: the empty input; seed 0 gives the all-zero digest. -/
def Obligations.EmptyInputHash : Prop :=
  ∀ s : State, s.len = 0 →
    ∃ t, exec .hash s = .next t ∧ t.h = final ⟨s.seed, s.seed, s.seed, s.seed⟩ 0 ∧
      (s.seed = 0 → t.h = ⟨0, 0, 0, 0⟩ ∧ ∀ a < 16, readByte t.mem a = 0)

/-- 95 S3 with R160, R183, R184: up to 4 input bytes leave h2, h3 and h4 equal. -/
def Obligations.ShortInputsLeaveThreeEqualLanes : Prop :=
  ∀ s : State, s.len.toNat ≤ 4 →
    ∃ t, exec .hash s = .next t ∧ t.h.h2 = t.h.h3 ∧ t.h.h3 = t.h.h4

/-! ## The formatter -/

/-- R232 with R230, R231 and R233: byte `c` of the HEX registers is character `c` of the header's four words, byte 43 is 0x00; nothing else but STATUS changes. -/
def Obligations.FormatWritesTheHexString : Prop :=
  decode 0x00000030 = .ok .format ∧
  ∀ s : State, ∃ t, exec .format s = .next t ∧
    (∀ c < 44, byteNat (readOffset t (0x40 + 4 * (c / 4))) (c % 4) = hexChar (fun j => readWord s.mem (4 * j)) c) ∧
    { t with hex := s.hex } = { s with err := .ok }

/-! ## The buffer memory -/

/-- R52, R53: the word read and the word write, byte by byte; every other byte is unchanged. -/
def Obligations.WordAccessIsLittleEndian : Prop :=
  ∀ (m : Memory) (a : Nat) (v : Word),
    (readWord m a).toNat = (readByte m a).toNat + 256 * (readByte m (a + 1)).toNat
      + 65536 * (readByte m (a + 2)).toNat + 16777216 * (readByte m (a + 3)).toNat ∧
    (∀ j < 4, (readByte (writeWord m a v) (a + j)).toNat = byteNat v j) ∧
    (∀ b, b < a ∨ a + 4 ≤ b → readByte (writeWord m a v) b = readByte m b) ∧
    readWord (writeWord m a v) a = v

/-- R55, R58: no command changes a byte behind the header, and only HASH and STOREH change any byte. -/
def Obligations.CommandsWriteOnlyTheHeader : Prop :=
  ∀ (i : Instr) (s t : State), exec i s = .next t →
    (∀ a, 16 ≤ a → readByte t.mem a = readByte s.mem a) ∧
    (i ≠ .hash → i ≠ .storeh → t.mem = s.mem)

/-- R56: no command reads or writes a byte at or above CAP: two memories that agree below CAP give the same registers and the same bytes below CAP, and each keeps its own bytes above. -/
def Obligations.CommandsStayInsideTheBuffer : Prop :=
  ∀ (i : Instr) (s : State) (m : Memory), (∀ a < 2 ^ s.capacity.m, readByte s.mem a = readByte m a) →
    ∃ t u, exec i s = .next t ∧ exec i { s with mem := m } = .next u ∧ { u with mem := t.mem } = t ∧
      (∀ a < 2 ^ s.capacity.m, readByte t.mem a = readByte u.mem a) ∧
      ∀ a, 2 ^ s.capacity.m ≤ a → readByte t.mem a = readByte s.mem a ∧ readByte u.mem a = readByte m a

/-- R58, R60: bytes the host writes inside the buffer are what its next read of them returns; all other bytes and everything else are unchanged. -/
def Obligations.HostReadsBackWhatItWrote : Prop :=
  ∀ (s : State) (a : Nat) (bs : List Byte) (rest : List HostOp),
    s.host = .memWrite a bs :: .memRead a bs.length :: rest → a + bs.length ≤ s.cap →
    ∃ t u, step s = .next t ∧ step t = .next u ∧
      u.replies = s.replies ++ [.bytes a bs] ∧
      (∀ b, b < a ∨ a + bs.length ≤ b → readByte u.mem b = readByte s.mem b) ∧
      { u with mem := s.mem, host := s.host, replies := s.replies } = s

/-- R50 with log 5 (the model's choice of a fault): a host access that reaches an address at or above CAP stops. -/
def Obligations.HostAccessBeyondTheBufferFaults : Prop :=
  ∀ (s : State) (a n : Nat) (bs : List Byte) (rest : List HostOp),
    (s.host = .memWrite a bs :: rest → bs ≠ [] → s.cap < a + bs.length → step s = .fault .bufferAddressAbsent) ∧
    (s.host = .memRead a n :: rest → n ≠ 0 → s.cap < a + n → step s = .fault .bufferAddressAbsent)

/-! ## The register window -/

/-- R33 with R22 to R32: a host read returns the register's value, 0 at CMD and at a reserved offset, and changes no state of the block. -/
def Obligations.HostReadReturnsTheRegister : Prop :=
  ∀ (s : State) (off : Nat) (rest : List HostOp),
    s.host = .regRead off 4 :: rest → off < 256 → off % 4 = 0 →
    step s = .next { s with host := rest, replies := s.replies ++ [.reg off (registerAt s off)] }

/-- R34: a host write to CMD executes the command, sets a read-write register, and is ignored by a read-only register and a reserved offset. -/
def Obligations.HostWriteSetsOnlyReadWriteRegisters : Prop :=
  ∀ (s : State) (off : Nat) (v : Word) (rest : List HostOp),
    s.host = .regWrite off 4 v :: rest → off < 256 → off % 4 = 0 →
    step s = if off = 0 then command v { s with host := rest } else .next (registerWritten { s with host := rest } off v)

/-- R35: a register access is refused exactly if it is not 32 bits wide, not aligned or outside the window. -/
def Obligations.RegisterAccessIsRefusedExactlyOutsideItsShape : Prop :=
  ∀ (s : State) (off width : Nat) (v : Word) (rest : List HostOp),
    (s.host = .regRead off width :: rest →
      ((∃ r, step s = .refused r) ↔ ¬ (width = 4 ∧ off < 256 ∧ off % 4 = 0))) ∧
    (s.host = .regWrite off width v :: rest →
      ((∃ r, step s = .refused r) ↔ ¬ (width = 4 ∧ off < 256 ∧ off % 4 = 0)))

/-- R24, R37: STATUS reads the code of ERR, 0 to 3, with bits 31:4 zero. -/
def Obligations.StatusReadsTheErrorCode : Prop :=
  ∀ s : State, (readOffset s 0x04).toNat < 4 ∧
    ((readOffset s 0x04).toNat = 0 ↔ s.err = .ok) ∧ ((readOffset s 0x04).toNat = 1 ↔ s.err = .illegalOpcode) ∧
    ((readOffset s 0x04).toNat = 2 ↔ s.err = .reservedField) ∧ ((readOffset s 0x04).toNat = 3 ↔ s.err = .range)

/-- R30: CAPACITY reads `m` of `CAP = 2^m`, 12 to 32, and no step changes it. -/
def Obligations.CapacityIsConstantForALaunch : Prop :=
  ∀ s : State, 12 ≤ (readOffset s 0x3C).toNat ∧ (readOffset s 0x3C).toNat ≤ 32 ∧
    s.cap = 2 ^ (readOffset s 0x3C).toNat ∧
    ∀ t, step s = .next t → readOffset t 0x3C = readOffset s 0x3C

/-! ## Whole-machine rules -/

/-- R250, R292: every command completes with ERR = OK, but for a HASH whose length does not fit, which leaves RANGE and nothing else. -/
def Obligations.EveryCommandCompletes : Prop :=
  ∀ (i : Instr) (s : State), ∃ t, exec i s = .next t ∧
    ((i = .hash ∧ 2 ^ s.capacity.m < 16 + s.len.toNat ∧ t = { s with err := .range }) ∨
     (¬ (i = .hash ∧ 2 ^ s.capacity.m < 16 + s.len.toNat) ∧ t.err = .ok))

/-- R25 to R31, R204: which registers a command may write. SEED, LEN, K1 to K4, MIX_A, MIX_B and CAPACITY are written by none, MIX_Y by the MIX commands only, HEX0 to HEX10 by FORMAT only, H1 to H4 by INIT, BLOCK, TAIL, FINAL and HASH only. -/
def Obligations.CommandsWriteOnlyTheirRegisters : Prop :=
  ∀ (i : Instr) (s t : State), exec i s = .next t →
    (t.seed = s.seed ∧ t.len = s.len ∧ t.k = s.k ∧ t.mixA = s.mixA ∧ t.mixB = s.mixB ∧ t.capacity = s.capacity ∧
      t.host = s.host ∧ t.replies = s.replies) ∧
    (i ∉ [.add32, .xor32, .mul32, .rotl32, .shr32] → t.mixY = s.mixY) ∧
    (i ≠ .format → t.hex = s.hex) ∧
    (i ∉ [.init, .block, .tail, .final, .hash] → t.h = s.h)

/-- R29: no command but the MIX commands reads MIX_A, MIX_B or MIX_Y. -/
def Obligations.OnlyMixCommandsReadTheMixer : Prop :=
  ∀ (i : Instr) (s : State) (a b y : Word), i ∉ [.add32, .xor32, .mul32, .rotl32, .shr32] →
    ∃ t, exec i s = .next t ∧
      exec i { s with mixA := a, mixB := b, mixY := y } = .next { t with mixA := a, mixB := b, mixY := y }

/-! ## Reset and invariants -/

/-- R38, R290: a launch begins with every register 0, CAPACITY reading `m`, and the buffer memory it is given. -/
def Obligations.LaunchHasTheResetValues : Prop :=
  ∀ (c : LogCap) (mem : Memory) (prog : List HostOp) (off : Nat),
    readOffset (State.launch c mem prog) off = (if off = 0x3C then BitVec.ofNat 32 c.m else 0) ∧
    (State.launch c mem prog).mem = mem ∧ (State.launch c mem prog).host = prog

/-- R280, R281: a reset sets every register to its value of R38 and does not change the buffer memory. -/
def Obligations.ResetSetsRegistersAndKeepsMemory : Prop :=
  ∀ (s : State) (off : Nat),
    readOffset s.resetRegisters off = (if off = 0x3C then BitVec.ofNat 32 s.capacity.m else 0) ∧
    s.resetRegisters.mem = s.mem

/-- The invariant holds at `State.reset` and where any launch with a memory of the canonical form inside its buffer begins (R290; the canonical form is the model's, log 2). -/
def Obligations.ResetAndLaunchMeetTheInvariant : Prop :=
  State.reset.Inv ∧
  ∀ (c : LogCap) (mem : Memory) (prog : List HostOp),
    Memory.wf mem → (∀ x ∈ mem, x.1 < 2 ^ c.m) → (State.launch c mem prog).Inv

/-- R50, R31: every step keeps the memory in its canonical form and inside the buffer, and byte 43 of the hex string 0x00. -/
def Obligations.StepKeepsTheInvariant : Prop :=
  ∀ s t : State, s.Inv → step s = .next t → t.Inv

/-- R31, R38, R233: every step keeps HEX0 to HEX10 either all zero or the 43-character string of some four words with byte 43 zero. -/
def Obligations.HexRegistersHoldZeroOrText : Prop :=
  HexZeroOrText State.reset ∧ ∀ s t : State, HexZeroOrText s → step s = .next t → HexZeroOrText t

/-! ## Host programs -/

/-- R88: what the statements and pseudo-instructions expand to. -/
def Obligations.HostStatementsExpandAsListed : Prop :=
  (∀ r v, Stmt.expand (.wr r v) = [.regWrite r.offset 4 v]) ∧
  (∀ r, Stmt.expand (.rd r) = [.regRead r.offset 4]) ∧
  (∀ a bs, Stmt.expand (.memb a bs) = [.memWrite a bs]) ∧
  (∀ i w, (w, i) ∈ commandWords → Stmt.expand (.cmd i) = [.regWrite 0x00 4 w]) ∧
  (∀ w, Stmt.expand (.cmdw w) = [.regWrite 0x00 4 w]) ∧
  (∀ op a b, Stmt.expand (.mix op a b) = Stmt.expand (.wr .mixA a) ++ Stmt.expand (.wr .mixB b) ++ Stmt.expand (.cmd op.instr)) ∧
  (∀ a b c d, Stmt.expand (.setk a b c d) =
    Stmt.expand (.wr .k1 a) ++ Stmt.expand (.wr .k2 b) ++ Stmt.expand (.wr .k3 c) ++ Stmt.expand (.wr .k4 d)) ∧
  (∀ a b c d, Stmt.expand (.seth a b c d) =
    Stmt.expand (.wr .h1 a) ++ Stmt.expand (.wr .h2 b) ++ Stmt.expand (.wr .h3 c) ++ Stmt.expand (.wr .h4 d)) ∧
  Stmt.expand .rdhex = (List.range 11).map (fun j => HostOp.regRead (0x40 + 4 * j) 4)
end

