-- ==== Sys2Proof/Laws/State.lean ====
section
/-! SUPPORT. One lemma per field per update of State, so that no proof unfolds a record update. -/

namespace Sys2Proof.Machine

variable (s : State)

@[simp] theorem State.withErr_err (x : ErrCode) : (s.withErr x).err = x := rfl
@[simp] theorem State.withErr_seed (x : ErrCode) : (s.withErr x).seed = s.seed := rfl
@[simp] theorem State.withErr_len (x : ErrCode) : (s.withErr x).len = s.len := rfl
@[simp] theorem State.withErr_h (x : ErrCode) : (s.withErr x).h = s.h := rfl
@[simp] theorem State.withErr_k (x : ErrCode) : (s.withErr x).k = s.k := rfl
@[simp] theorem State.withErr_mixA (x : ErrCode) : (s.withErr x).mixA = s.mixA := rfl
@[simp] theorem State.withErr_mixB (x : ErrCode) : (s.withErr x).mixB = s.mixB := rfl
@[simp] theorem State.withErr_mixY (x : ErrCode) : (s.withErr x).mixY = s.mixY := rfl
@[simp] theorem State.withErr_capacity (x : ErrCode) : (s.withErr x).capacity = s.capacity := rfl
@[simp] theorem State.withErr_hex (x : ErrCode) : (s.withErr x).hex = s.hex := rfl
@[simp] theorem State.withErr_mem (x : ErrCode) : (s.withErr x).mem = s.mem := rfl
@[simp] theorem State.withErr_host (x : ErrCode) : (s.withErr x).host = s.host := rfl
@[simp] theorem State.withErr_replies (x : ErrCode) : (s.withErr x).replies = s.replies := rfl
@[simp] theorem State.withErr_cap (x : ErrCode) : (s.withErr x).cap = s.cap := rfl

@[simp] theorem State.withSeed_err (x : Word) : (s.withSeed x).err = s.err := rfl
@[simp] theorem State.withSeed_seed (x : Word) : (s.withSeed x).seed = x := rfl
@[simp] theorem State.withSeed_len (x : Word) : (s.withSeed x).len = s.len := rfl
@[simp] theorem State.withSeed_h (x : Word) : (s.withSeed x).h = s.h := rfl
@[simp] theorem State.withSeed_k (x : Word) : (s.withSeed x).k = s.k := rfl
@[simp] theorem State.withSeed_mixA (x : Word) : (s.withSeed x).mixA = s.mixA := rfl
@[simp] theorem State.withSeed_mixB (x : Word) : (s.withSeed x).mixB = s.mixB := rfl
@[simp] theorem State.withSeed_mixY (x : Word) : (s.withSeed x).mixY = s.mixY := rfl
@[simp] theorem State.withSeed_capacity (x : Word) : (s.withSeed x).capacity = s.capacity := rfl
@[simp] theorem State.withSeed_hex (x : Word) : (s.withSeed x).hex = s.hex := rfl
@[simp] theorem State.withSeed_mem (x : Word) : (s.withSeed x).mem = s.mem := rfl
@[simp] theorem State.withSeed_host (x : Word) : (s.withSeed x).host = s.host := rfl
@[simp] theorem State.withSeed_replies (x : Word) : (s.withSeed x).replies = s.replies := rfl
@[simp] theorem State.withSeed_cap (x : Word) : (s.withSeed x).cap = s.cap := rfl

@[simp] theorem State.withLen_err (x : Word) : (s.withLen x).err = s.err := rfl
@[simp] theorem State.withLen_seed (x : Word) : (s.withLen x).seed = s.seed := rfl
@[simp] theorem State.withLen_len (x : Word) : (s.withLen x).len = x := rfl
@[simp] theorem State.withLen_h (x : Word) : (s.withLen x).h = s.h := rfl
@[simp] theorem State.withLen_k (x : Word) : (s.withLen x).k = s.k := rfl
@[simp] theorem State.withLen_mixA (x : Word) : (s.withLen x).mixA = s.mixA := rfl
@[simp] theorem State.withLen_mixB (x : Word) : (s.withLen x).mixB = s.mixB := rfl
@[simp] theorem State.withLen_mixY (x : Word) : (s.withLen x).mixY = s.mixY := rfl
@[simp] theorem State.withLen_capacity (x : Word) : (s.withLen x).capacity = s.capacity := rfl
@[simp] theorem State.withLen_hex (x : Word) : (s.withLen x).hex = s.hex := rfl
@[simp] theorem State.withLen_mem (x : Word) : (s.withLen x).mem = s.mem := rfl
@[simp] theorem State.withLen_host (x : Word) : (s.withLen x).host = s.host := rfl
@[simp] theorem State.withLen_replies (x : Word) : (s.withLen x).replies = s.replies := rfl
@[simp] theorem State.withLen_cap (x : Word) : (s.withLen x).cap = s.cap := rfl

@[simp] theorem State.withH_err (x : Lanes) : (s.withH x).err = s.err := rfl
@[simp] theorem State.withH_seed (x : Lanes) : (s.withH x).seed = s.seed := rfl
@[simp] theorem State.withH_len (x : Lanes) : (s.withH x).len = s.len := rfl
@[simp] theorem State.withH_h (x : Lanes) : (s.withH x).h = x := rfl
@[simp] theorem State.withH_k (x : Lanes) : (s.withH x).k = s.k := rfl
@[simp] theorem State.withH_mixA (x : Lanes) : (s.withH x).mixA = s.mixA := rfl
@[simp] theorem State.withH_mixB (x : Lanes) : (s.withH x).mixB = s.mixB := rfl
@[simp] theorem State.withH_mixY (x : Lanes) : (s.withH x).mixY = s.mixY := rfl
@[simp] theorem State.withH_capacity (x : Lanes) : (s.withH x).capacity = s.capacity := rfl
@[simp] theorem State.withH_hex (x : Lanes) : (s.withH x).hex = s.hex := rfl
@[simp] theorem State.withH_mem (x : Lanes) : (s.withH x).mem = s.mem := rfl
@[simp] theorem State.withH_host (x : Lanes) : (s.withH x).host = s.host := rfl
@[simp] theorem State.withH_replies (x : Lanes) : (s.withH x).replies = s.replies := rfl
@[simp] theorem State.withH_cap (x : Lanes) : (s.withH x).cap = s.cap := rfl

@[simp] theorem State.withK_err (x : KWords) : (s.withK x).err = s.err := rfl
@[simp] theorem State.withK_seed (x : KWords) : (s.withK x).seed = s.seed := rfl
@[simp] theorem State.withK_len (x : KWords) : (s.withK x).len = s.len := rfl
@[simp] theorem State.withK_h (x : KWords) : (s.withK x).h = s.h := rfl
@[simp] theorem State.withK_k (x : KWords) : (s.withK x).k = x := rfl
@[simp] theorem State.withK_mixA (x : KWords) : (s.withK x).mixA = s.mixA := rfl
@[simp] theorem State.withK_mixB (x : KWords) : (s.withK x).mixB = s.mixB := rfl
@[simp] theorem State.withK_mixY (x : KWords) : (s.withK x).mixY = s.mixY := rfl
@[simp] theorem State.withK_capacity (x : KWords) : (s.withK x).capacity = s.capacity := rfl
@[simp] theorem State.withK_hex (x : KWords) : (s.withK x).hex = s.hex := rfl
@[simp] theorem State.withK_mem (x : KWords) : (s.withK x).mem = s.mem := rfl
@[simp] theorem State.withK_host (x : KWords) : (s.withK x).host = s.host := rfl
@[simp] theorem State.withK_replies (x : KWords) : (s.withK x).replies = s.replies := rfl
@[simp] theorem State.withK_cap (x : KWords) : (s.withK x).cap = s.cap := rfl

@[simp] theorem State.withMixA_err (x : Word) : (s.withMixA x).err = s.err := rfl
@[simp] theorem State.withMixA_seed (x : Word) : (s.withMixA x).seed = s.seed := rfl
@[simp] theorem State.withMixA_len (x : Word) : (s.withMixA x).len = s.len := rfl
@[simp] theorem State.withMixA_h (x : Word) : (s.withMixA x).h = s.h := rfl
@[simp] theorem State.withMixA_k (x : Word) : (s.withMixA x).k = s.k := rfl
@[simp] theorem State.withMixA_mixA (x : Word) : (s.withMixA x).mixA = x := rfl
@[simp] theorem State.withMixA_mixB (x : Word) : (s.withMixA x).mixB = s.mixB := rfl
@[simp] theorem State.withMixA_mixY (x : Word) : (s.withMixA x).mixY = s.mixY := rfl
@[simp] theorem State.withMixA_capacity (x : Word) : (s.withMixA x).capacity = s.capacity := rfl
@[simp] theorem State.withMixA_hex (x : Word) : (s.withMixA x).hex = s.hex := rfl
@[simp] theorem State.withMixA_mem (x : Word) : (s.withMixA x).mem = s.mem := rfl
@[simp] theorem State.withMixA_host (x : Word) : (s.withMixA x).host = s.host := rfl
@[simp] theorem State.withMixA_replies (x : Word) : (s.withMixA x).replies = s.replies := rfl
@[simp] theorem State.withMixA_cap (x : Word) : (s.withMixA x).cap = s.cap := rfl

@[simp] theorem State.withMixB_err (x : Word) : (s.withMixB x).err = s.err := rfl
@[simp] theorem State.withMixB_seed (x : Word) : (s.withMixB x).seed = s.seed := rfl
@[simp] theorem State.withMixB_len (x : Word) : (s.withMixB x).len = s.len := rfl
@[simp] theorem State.withMixB_h (x : Word) : (s.withMixB x).h = s.h := rfl
@[simp] theorem State.withMixB_k (x : Word) : (s.withMixB x).k = s.k := rfl
@[simp] theorem State.withMixB_mixA (x : Word) : (s.withMixB x).mixA = s.mixA := rfl
@[simp] theorem State.withMixB_mixB (x : Word) : (s.withMixB x).mixB = x := rfl
@[simp] theorem State.withMixB_mixY (x : Word) : (s.withMixB x).mixY = s.mixY := rfl
@[simp] theorem State.withMixB_capacity (x : Word) : (s.withMixB x).capacity = s.capacity := rfl
@[simp] theorem State.withMixB_hex (x : Word) : (s.withMixB x).hex = s.hex := rfl
@[simp] theorem State.withMixB_mem (x : Word) : (s.withMixB x).mem = s.mem := rfl
@[simp] theorem State.withMixB_host (x : Word) : (s.withMixB x).host = s.host := rfl
@[simp] theorem State.withMixB_replies (x : Word) : (s.withMixB x).replies = s.replies := rfl
@[simp] theorem State.withMixB_cap (x : Word) : (s.withMixB x).cap = s.cap := rfl

@[simp] theorem State.withMixY_err (x : Word) : (s.withMixY x).err = s.err := rfl
@[simp] theorem State.withMixY_seed (x : Word) : (s.withMixY x).seed = s.seed := rfl
@[simp] theorem State.withMixY_len (x : Word) : (s.withMixY x).len = s.len := rfl
@[simp] theorem State.withMixY_h (x : Word) : (s.withMixY x).h = s.h := rfl
@[simp] theorem State.withMixY_k (x : Word) : (s.withMixY x).k = s.k := rfl
@[simp] theorem State.withMixY_mixA (x : Word) : (s.withMixY x).mixA = s.mixA := rfl
@[simp] theorem State.withMixY_mixB (x : Word) : (s.withMixY x).mixB = s.mixB := rfl
@[simp] theorem State.withMixY_mixY (x : Word) : (s.withMixY x).mixY = x := rfl
@[simp] theorem State.withMixY_capacity (x : Word) : (s.withMixY x).capacity = s.capacity := rfl
@[simp] theorem State.withMixY_hex (x : Word) : (s.withMixY x).hex = s.hex := rfl
@[simp] theorem State.withMixY_mem (x : Word) : (s.withMixY x).mem = s.mem := rfl
@[simp] theorem State.withMixY_host (x : Word) : (s.withMixY x).host = s.host := rfl
@[simp] theorem State.withMixY_replies (x : Word) : (s.withMixY x).replies = s.replies := rfl
@[simp] theorem State.withMixY_cap (x : Word) : (s.withMixY x).cap = s.cap := rfl

@[simp] theorem State.withHex_err (x : Vector Word 11) : (s.withHex x).err = s.err := rfl
@[simp] theorem State.withHex_seed (x : Vector Word 11) : (s.withHex x).seed = s.seed := rfl
@[simp] theorem State.withHex_len (x : Vector Word 11) : (s.withHex x).len = s.len := rfl
@[simp] theorem State.withHex_h (x : Vector Word 11) : (s.withHex x).h = s.h := rfl
@[simp] theorem State.withHex_k (x : Vector Word 11) : (s.withHex x).k = s.k := rfl
@[simp] theorem State.withHex_mixA (x : Vector Word 11) : (s.withHex x).mixA = s.mixA := rfl
@[simp] theorem State.withHex_mixB (x : Vector Word 11) : (s.withHex x).mixB = s.mixB := rfl
@[simp] theorem State.withHex_mixY (x : Vector Word 11) : (s.withHex x).mixY = s.mixY := rfl
@[simp] theorem State.withHex_capacity (x : Vector Word 11) : (s.withHex x).capacity = s.capacity := rfl
@[simp] theorem State.withHex_hex (x : Vector Word 11) : (s.withHex x).hex = x := rfl
@[simp] theorem State.withHex_mem (x : Vector Word 11) : (s.withHex x).mem = s.mem := rfl
@[simp] theorem State.withHex_host (x : Vector Word 11) : (s.withHex x).host = s.host := rfl
@[simp] theorem State.withHex_replies (x : Vector Word 11) : (s.withHex x).replies = s.replies := rfl
@[simp] theorem State.withHex_cap (x : Vector Word 11) : (s.withHex x).cap = s.cap := rfl

@[simp] theorem State.withMem_err (x : Memory) : (s.withMem x).err = s.err := rfl
@[simp] theorem State.withMem_seed (x : Memory) : (s.withMem x).seed = s.seed := rfl
@[simp] theorem State.withMem_len (x : Memory) : (s.withMem x).len = s.len := rfl
@[simp] theorem State.withMem_h (x : Memory) : (s.withMem x).h = s.h := rfl
@[simp] theorem State.withMem_k (x : Memory) : (s.withMem x).k = s.k := rfl
@[simp] theorem State.withMem_mixA (x : Memory) : (s.withMem x).mixA = s.mixA := rfl
@[simp] theorem State.withMem_mixB (x : Memory) : (s.withMem x).mixB = s.mixB := rfl
@[simp] theorem State.withMem_mixY (x : Memory) : (s.withMem x).mixY = s.mixY := rfl
@[simp] theorem State.withMem_capacity (x : Memory) : (s.withMem x).capacity = s.capacity := rfl
@[simp] theorem State.withMem_hex (x : Memory) : (s.withMem x).hex = s.hex := rfl
@[simp] theorem State.withMem_mem (x : Memory) : (s.withMem x).mem = x := rfl
@[simp] theorem State.withMem_host (x : Memory) : (s.withMem x).host = s.host := rfl
@[simp] theorem State.withMem_replies (x : Memory) : (s.withMem x).replies = s.replies := rfl
@[simp] theorem State.withMem_cap (x : Memory) : (s.withMem x).cap = s.cap := rfl

@[simp] theorem State.withHost_err (x : List HostOp) : (s.withHost x).err = s.err := rfl
@[simp] theorem State.withHost_seed (x : List HostOp) : (s.withHost x).seed = s.seed := rfl
@[simp] theorem State.withHost_len (x : List HostOp) : (s.withHost x).len = s.len := rfl
@[simp] theorem State.withHost_h (x : List HostOp) : (s.withHost x).h = s.h := rfl
@[simp] theorem State.withHost_k (x : List HostOp) : (s.withHost x).k = s.k := rfl
@[simp] theorem State.withHost_mixA (x : List HostOp) : (s.withHost x).mixA = s.mixA := rfl
@[simp] theorem State.withHost_mixB (x : List HostOp) : (s.withHost x).mixB = s.mixB := rfl
@[simp] theorem State.withHost_mixY (x : List HostOp) : (s.withHost x).mixY = s.mixY := rfl
@[simp] theorem State.withHost_capacity (x : List HostOp) : (s.withHost x).capacity = s.capacity := rfl
@[simp] theorem State.withHost_hex (x : List HostOp) : (s.withHost x).hex = s.hex := rfl
@[simp] theorem State.withHost_mem (x : List HostOp) : (s.withHost x).mem = s.mem := rfl
@[simp] theorem State.withHost_host (x : List HostOp) : (s.withHost x).host = x := rfl
@[simp] theorem State.withHost_replies (x : List HostOp) : (s.withHost x).replies = s.replies := rfl
@[simp] theorem State.withHost_cap (x : List HostOp) : (s.withHost x).cap = s.cap := rfl

@[simp] theorem State.withReplies_err (x : List HostReply) : (s.withReplies x).err = s.err := rfl
@[simp] theorem State.withReplies_seed (x : List HostReply) : (s.withReplies x).seed = s.seed := rfl
@[simp] theorem State.withReplies_len (x : List HostReply) : (s.withReplies x).len = s.len := rfl
@[simp] theorem State.withReplies_h (x : List HostReply) : (s.withReplies x).h = s.h := rfl
@[simp] theorem State.withReplies_k (x : List HostReply) : (s.withReplies x).k = s.k := rfl
@[simp] theorem State.withReplies_mixA (x : List HostReply) : (s.withReplies x).mixA = s.mixA := rfl
@[simp] theorem State.withReplies_mixB (x : List HostReply) : (s.withReplies x).mixB = s.mixB := rfl
@[simp] theorem State.withReplies_mixY (x : List HostReply) : (s.withReplies x).mixY = s.mixY := rfl
@[simp] theorem State.withReplies_capacity (x : List HostReply) : (s.withReplies x).capacity = s.capacity := rfl
@[simp] theorem State.withReplies_hex (x : List HostReply) : (s.withReplies x).hex = s.hex := rfl
@[simp] theorem State.withReplies_mem (x : List HostReply) : (s.withReplies x).mem = s.mem := rfl
@[simp] theorem State.withReplies_host (x : List HostReply) : (s.withReplies x).host = s.host := rfl
@[simp] theorem State.withReplies_replies (x : List HostReply) : (s.withReplies x).replies = x := rfl
@[simp] theorem State.withReplies_cap (x : List HostReply) : (s.withReplies x).cap = s.cap := rfl

end Sys2Proof.Machine
end

