-- ==== Sys2Proof/Laws/Hash.lean ====
section
/-! SUPPORT. The hash functions in plain bit-vector operations, one equation each, so that no proof unfolds a lane constant or an activity test. -/

namespace Sys2Proof.Machine

theorem kmix_l1 (k : Word) : kmix .l1 k = (k * 0x239b961b).rotateLeft 15 * 0xab0e9789 := by
  simp [kmix, mult1, mult2, krot, mul32, rotl32]

theorem kmix_l2 (k : Word) : kmix .l2 k = (k * 0xab0e9789).rotateLeft 16 * 0x38b34ae5 := by
  simp [kmix, mult1, mult2, krot, mul32, rotl32]

theorem kmix_l3 (k : Word) : kmix .l3 k = (k * 0x38b34ae5).rotateLeft 17 * 0xa1e38b93 := by
  simp [kmix, mult1, mult2, krot, mul32, rotl32]

theorem kmix_l4 (k : Word) : kmix .l4 k = (k * 0xa1e38b93).rotateLeft 18 * 0x239b961b := by
  simp [kmix, mult1, mult2, krot, mul32, rotl32]

theorem lanestep_l1 (h k n : Word) :
    lanestep .l1 h k n = ((h ^^^ kmix .l1 k).rotateLeft 19 + n) * 5 + 0x561ccd1b := by
  simp [lanestep, hrot, hconst, add32, mul32, rotl32, xor32]

theorem lanestep_l2 (h k n : Word) :
    lanestep .l2 h k n = ((h ^^^ kmix .l2 k).rotateLeft 17 + n) * 5 + 0x0bcaa747 := by
  simp [lanestep, hrot, hconst, add32, mul32, rotl32, xor32]

theorem lanestep_l3 (h k n : Word) :
    lanestep .l3 h k n = ((h ^^^ kmix .l3 k).rotateLeft 15 + n) * 5 + 0x96cd1c35 := by
  simp [lanestep, hrot, hconst, add32, mul32, rotl32, xor32]

theorem lanestep_l4 (h k n : Word) :
    lanestep .l4 h k n = ((h ^^^ kmix .l4 k).rotateLeft 13 + n) * 5 + 0x32ac3b17 := by
  simp [lanestep, hrot, hconst, add32, mul32, rotl32, xor32]

theorem tailCount_eq (s : State) : tailCount s = s.len.toNat % 16 := by simp [tailCount]

theorem shiftAmount_toNat (s : State) : (shiftAmount s).toNat = s.mixB.toNat % 32 := by simp [shiftAmount]

/-- R162 lane by lane: each lane reads only its own h and k, so the order cannot matter. -/
theorem tail_eq (h : Lanes) (k : KWords) (t : Nat) : tail h k t =
    ⟨if 0 < t then h.h1 ^^^ kmix .l1 k.k1 else h.h1, if 4 < t then h.h2 ^^^ kmix .l2 k.k2 else h.h2,
     if 8 < t then h.h3 ^^^ kmix .l3 k.k3 else h.h3, if 12 < t then h.h4 ^^^ kmix .l4 k.k4 else h.h4⟩ := rfl

/-- R205 lane by lane. -/
theorem tailWords_eq (m : Memory) (tb t : Nat) : tailWords m tb t =
    ⟨if 0 < t then readWord m tb else 0, if 4 < t then readWord m (tb + 4) else 0,
     if 8 < t then readWord m (tb + 8) else 0, if 12 < t then readWord m (tb + 12) else 0⟩ := rfl

/-- HASH within the range (R203): the one place that unfolds it. -/
theorem exec_hash_of_fits {s : State} (h : 16 + s.len.toNat ≤ s.cap) :
    exec .hash s = .next (((s.withErr .ok).withH (hashLanes s.mem s.len s.seed)).withMem
      (storeHeader s.mem (hashLanes s.mem s.len s.seed))) := by
  have : ¬ hashOutOfRange s := by unfold hashOutOfRange payloadStart; omega
  simp only [exec, execHash, if_neg this, complete]

end Sys2Proof.Machine
end

