-- ==== Sys2Proof/Laws/Memory.lean ====
section
/-! SUPPORT. What the memory operations do: read after write, and that each keeps the canonical form and the address bound. -/

namespace Sys2Proof.Machine

/-! ## Reading after writing -/

theorem readByte_eraseByte (m : Memory) (a b : Nat) :
    readByte (eraseByte m a) b = if a = b then Memory.unlistedByte else readByte m b := by
  induction m with
  | nil => simp [eraseByte, readByte]
  | cons c m ih =>
    simp only [eraseByte]
    split
    · rw [ih]; split <;> simp_all [readByte]
    · simp only [readByte, ih]; split <;> split <;> simp_all

theorem readByte_insertCell (c : Host.Cell) (m : Memory) (b : Nat) (h : ∀ d ∈ m, d.1 ≠ c.1) :
    readByte (insertCell c m) b = if c.1 = b then c.2 else readByte m b := by
  induction m with
  | nil => simp [insertCell, readByte]
  | cons d m ih =>
    have hd := h d (by simp)
    have hm : ∀ e ∈ m, e.1 ≠ c.1 := fun e he => h e (by simp [he])
    simp only [insertCell]
    split
    · simp [readByte]
    · simp only [readByte, ih hm]
      split <;> split <;> simp_all

theorem eraseByte_ne {m : Memory} {a : Nat} : ∀ d ∈ eraseByte m a, d.1 ≠ a := by
  induction m with
  | nil => simp [eraseByte]
  | cons c m ih =>
    intro d hd
    simp only [eraseByte] at hd
    split at hd
    · exact ih d hd
    · rcases List.mem_cons.1 hd with rfl | hd
      · assumption
      · exact ih d hd

/-- R57, R60: a byte read gives what was last written to it, and a write leaves every other byte alone. -/
theorem readByte_writeByte (m : Memory) (a b : Nat) (v : Byte) :
    readByte (writeByte m a v) b = if a = b then v else readByte m b := by
  unfold writeByte
  split
  · rw [readByte_eraseByte]; split <;> simp_all
  · rw [readByte_insertCell _ _ _ eraseByte_ne, readByte_eraseByte]; split <;> simp_all

/-- R53: the bytes a word write leaves. -/
theorem readByte_writeWord (m : Memory) (a b : Nat) (v : Word) :
    readByte (writeWord m a v) b =
      if a = b then byteOf v 0 else if a + 1 = b then byteOf v 1
      else if a + 2 = b then byteOf v 2 else if a + 3 = b then byteOf v 3 else readByte m b := by
  simp only [writeWord, readByte_writeByte]
  split_ifs <;> first | rfl | omega

theorem readByte_writeWord_of_outside {m : Memory} {a b : Nat} {v : Word} (h : b < a ∨ a + 4 ≤ b) :
    readByte (writeWord m a v) b = readByte m b := by
  rw [readByte_writeWord]
  split_ifs <;> first | rfl | omega

theorem readByte_storeHeader_of_outside {m : Memory} {h : Lanes} {b : Nat} (hb : 16 ≤ b) :
    readByte (storeHeader m h) b = readByte m b := by
  unfold storeHeader
  rw [readByte_writeWord_of_outside (by omega), readByte_writeWord_of_outside (by omega),
    readByte_writeWord_of_outside (by omega), readByte_writeWord_of_outside (by omega)]

theorem readByte_writeBytes (m : Memory) (a b : Nat) (bs : List Byte) :
    readByte (writeBytes m a bs) b =
      if a ≤ b ∧ b < a + bs.length then bs.getD (b - a) 0 else readByte m b := by
  induction bs generalizing m a with
  | nil => simp [writeBytes]
  | cons v bs ih =>
    simp only [writeBytes, ih, readByte_writeByte, List.length_cons]
    rcases Nat.lt_trichotomy a b with h | h | h
    · obtain ⟨n, rfl⟩ : ∃ n, b = a + 1 + n := ⟨b - a - 1, by omega⟩
      have e1 : a + 1 + n - (a + 1) = n := by omega
      have e2 : a + 1 + n - a = n + 1 := by omega
      rw [e1, e2, List.getD_cons_succ]
      split_ifs <;> first | rfl | omega
    · subst h; simp
    · split_ifs <;> first | rfl | omega

theorem ofBytes_byteOf (v : Word) : ofBytes (byteOf v 0) (byteOf v 1) (byteOf v 2) (byteOf v 3) = v := by
  unfold ofBytes byteOf
  apply BitVec.eq_of_getLsbD_eq
  intro i hi
  simp only [BitVec.getLsbD_append, BitVec.getLsbD_extractLsb']
  split_ifs
  · rename_i h; simp [h]
  · rename_i h1 h2; simp only [h2, decide_true, Bool.true_and]; congr 1; omega
  · rename_i h1 h2 h3; simp only [h3, decide_true, Bool.true_and]; congr 1; omega
  · rename_i h1 h2 h3
    have h4 : i - 8 - 8 - 8 < 8 := by omega
    simp only [h4, decide_true, Bool.true_and]; congr 1; omega

theorem readWord_writeWord (m : Memory) (a : Nat) (v : Word) : readWord (writeWord m a v) a = v := by
  simp [readWord, readByte_writeWord, ofBytes_byteOf]

theorem readWord_congr {m m' : Memory} {a : Nat} (h : ∀ j < 4, readByte m (a + j) = readByte m' (a + j)) :
    readWord m a = readWord m' a := by
  have h0 := h 0 (by omega)
  simp only [Nat.add_zero] at h0
  simp [readWord, h0, h 1 (by omega), h 2 (by omega), h 3 (by omega)]

theorem readWord_writeWord_of_disjoint {m : Memory} {a b : Nat} {v : Word} (h : b + 4 ≤ a ∨ a + 4 ≤ b) :
    readWord (writeWord m a v) b = readWord m b :=
  readWord_congr fun j hj => readByte_writeWord_of_outside (by omega)

/-! ## The canonical form and the address bound -/

/-- The form `State.Inv` asks of the memory for a buffer of `n` bytes. -/
def Memory.Fits (n : Nat) (m : Memory) : Prop := Memory.wf m ∧ ∀ c ∈ m, c.1 < n

theorem mem_of_mem_eraseByte {m : Memory} {a : Nat} {c : Host.Cell} (h : c ∈ eraseByte m a) : c ∈ m := by
  induction m with
  | nil => simp [eraseByte] at h
  | cons d m ih =>
    simp only [eraseByte] at h
    split at h
    · exact List.mem_cons_of_mem _ (ih h)
    · rcases List.mem_cons.1 h with rfl | h
      · simp
      · exact List.mem_cons_of_mem _ (ih h)

theorem mem_insertCell {c d : Host.Cell} {m : Memory} : d ∈ insertCell c m ↔ d = c ∨ d ∈ m := by
  induction m with
  | nil => simp [insertCell]
  | cons e m ih =>
    simp only [insertCell]
    split
    · simp
    · simp only [List.mem_cons, ih]; tauto

theorem eraseByte_wf {m : Memory} {a : Nat} (h : Memory.wf m) : Memory.wf (eraseByte m a) := by
  refine ⟨?_, fun c hc => h.2 c (mem_of_mem_eraseByte hc)⟩
  have h1 := h.1
  clear h
  induction m with
  | nil => simp [eraseByte]
  | cons d m ih =>
    rw [List.pairwise_cons] at h1
    simp only [eraseByte]
    split
    · exact ih h1.2
    · exact List.pairwise_cons.2 ⟨fun c hc => h1.1 c (mem_of_mem_eraseByte hc), ih h1.2⟩

theorem insertCell_wf {c : Host.Cell} {m : Memory} (h : Memory.wf m) (hc : c.2 ≠ Memory.unlistedByte)
    (hne : ∀ d ∈ m, d.1 ≠ c.1) : Memory.wf (insertCell c m) := by
  refine ⟨?_, fun d hd => (mem_insertCell.1 hd).elim (fun e => e ▸ hc) (h.2 d)⟩
  have h1 := h.1
  clear h
  induction m with
  | nil => simp [insertCell]
  | cons e m ih =>
    rw [List.pairwise_cons] at h1
    have hec := hne e (by simp)
    simp only [insertCell]
    split
    · rename_i hlt
      refine List.pairwise_cons.2 ⟨fun d hd => ?_, List.pairwise_cons.2 h1⟩
      rcases List.mem_cons.1 hd with rfl | hd
      · exact hlt
      · exact Nat.lt_trans hlt (h1.1 d hd)
    · refine List.pairwise_cons.2 ⟨fun d hd => ?_, ih (fun d hd => hne d (by simp [hd])) h1.2⟩
      rcases mem_insertCell.1 hd with rfl | hd
      · omega
      · exact h1.1 d hd

theorem writeByte_wf {m : Memory} {a : Nat} {v : Byte} (h : Memory.wf m) : Memory.wf (writeByte m a v) := by
  unfold writeByte
  split
  · exact eraseByte_wf h
  · exact insertCell_wf (eraseByte_wf h) ‹_› eraseByte_ne

theorem writeByte_fits {n : Nat} {m : Memory} {a : Nat} {v : Byte} (h : Memory.Fits n m) (ha : a < n) :
    Memory.Fits n (writeByte m a v) := by
  refine ⟨writeByte_wf h.1, fun c hc => ?_⟩
  unfold writeByte at hc
  split at hc
  · exact h.2 c (mem_of_mem_eraseByte hc)
  · rcases mem_insertCell.1 hc with rfl | hc
    · exact ha
    · exact h.2 c (mem_of_mem_eraseByte hc)

theorem writeWord_fits {n : Nat} {m : Memory} {a : Nat} {v : Word} (h : Memory.Fits n m) (ha : a + 4 ≤ n) :
    Memory.Fits n (writeWord m a v) :=
  writeByte_fits (writeByte_fits (writeByte_fits (writeByte_fits h (by omega)) (by omega)) (by omega)) (by omega)

theorem writeBytes_fits {n : Nat} {m : Memory} {a : Nat} {bs : List Byte} (h : Memory.Fits n m)
    (ha : a + bs.length ≤ n) : Memory.Fits n (writeBytes m a bs) := by
  induction bs generalizing m a with
  | nil => exact h
  | cons b bs ih =>
    simp only [List.length_cons] at ha
    exact ih (writeByte_fits h (by omega)) (by omega)

theorem storeHeader_fits {n : Nat} {m : Memory} {h : Lanes} (hm : Memory.Fits n m) (hn : 16 ≤ n) :
    Memory.Fits n (storeHeader m h) :=
  writeWord_fits (writeWord_fits (writeWord_fits (writeWord_fits hm (by omega)) (by omega)) (by omega)) (by omega)

/-- R56: every buffer has room for the header, `CAP ≥ 4096`. -/
theorem State.cap_ge (s : State) : 4096 ≤ s.cap := by
  have h : 2 ^ 12 ≤ 2 ^ s.capacity.m := Nat.pow_le_pow_right (by omega) s.capacity.lo
  simpa [State.cap] using h

theorem reset_memory_wf : Memory.wf State.reset.mem := by decide

end Sys2Proof.Machine
end

