-- ==== Sys2Proof/Laws/PerInstr.lean ====
section
/-! SUPPORT. The per-instruction family `RoundTrip`: a command is well formed, and its word decodes to it. -/

namespace Sys2Proof.Laws.RoundTrip

/-- The command is well formed and the decoder reads it back from its word (R83, R85). -/
def Statement (i : Instr) : Prop := i.wf = true ∧ decode (encode i) = .ok i

theorem nop : Statement .nop := ⟨rfl, rfl⟩
theorem add32 : Statement .add32 := ⟨rfl, rfl⟩
theorem xor32 : Statement .xor32 := ⟨rfl, rfl⟩
theorem mul32 : Statement .mul32 := ⟨rfl, rfl⟩
theorem rotl32 : Statement .rotl32 := ⟨rfl, rfl⟩
theorem shr32 : Statement .shr32 := ⟨rfl, rfl⟩
theorem init : Statement .init := ⟨rfl, rfl⟩
theorem block : Statement .block := ⟨rfl, rfl⟩
theorem tail : Statement .tail := ⟨rfl, rfl⟩
theorem final : Statement .final := ⟨rfl, rfl⟩
theorem storeh : Statement .storeh := ⟨rfl, rfl⟩
theorem hash : Statement .hash := ⟨rfl, rfl⟩
theorem format : Statement .format := ⟨rfl, rfl⟩

end Sys2Proof.Laws.RoundTrip
end

