-- ==== Sys2Proof/Laws/Run.lean ====
section
/-! SUPPORT. Runs of several steps: one step peeled off, and two runs put together. -/

namespace Sys2Proof.Machine

theorem run_zero (s : State) : Host.Core.run Sys2Proof.core 0 s = .next s := rfl

theorem run_succ {s t : State} (h : step s = .next t) (n : Nat) :
    Host.Core.run Sys2Proof.core (n + 1) s = Host.Core.run Sys2Proof.core n t := by
  have h' : Sys2Proof.core.step s = .next t := h
  simp only [Host.Core.run, h']

theorem run_add {s t : State} {a : Nat} (b : Nat) (h : Host.Core.run Sys2Proof.core a s = .next t) :
    Host.Core.run Sys2Proof.core (a + b) s = Host.Core.run Sys2Proof.core b t := by
  induction a generalizing s with
  | zero =>
    have : s = t := Host.Outcome.next.inj (show (.next s : Host.Outcome State Fault Refusal) = .next t from h)
    rw [this, Nat.zero_add]
  | succ a ih =>
    rw [show a + 1 + b = (a + b) + 1 by omega]
    have hs : Sys2Proof.core.step s = step s := rfl
    cases hx : step s with
    | next u =>
      rw [run_succ hx] at h
      rw [run_succ hx]
      exact ih h
    | fault r => simp [Host.Core.run, hs, hx] at h
    | refused r => simp [Host.Core.run, hs, hx] at h

end Sys2Proof.Machine
end

