-- ==== Sys2Proof/Laws/Step.lean ====
section
/-! SUPPORT. What the shared operations answer, and every way a step can go on. -/

namespace Sys2Proof.Machine

@[simp] theorem complete_eq_next (s t : State) (f : State → State) :
    complete s f = .next t ↔ f (s.withErr .ok) = t := by simp [complete]

@[simp] theorem raiseCmdError_eq_next (e : ErrCode) (s t : State) :
    raiseCmdError e s = .next t ↔ s.withErr e = t := by simp [raiseCmdError]

/-- Everything a command can do: what it leaves is the state before it with ERR written and at most the one register or the header its rule names. -/
theorem exec_cases {i : Instr} {s t : State} (h : exec i s = .next t) :
    (i = .nop ∧ t = s.withErr .ok) ∨
    (i ∈ [.add32, .xor32, .mul32, .rotl32, .shr32] ∧ ∃ y, t = (s.withErr .ok).withMixY y) ∨
    (i ∈ [.init, .block, .tail, .final] ∧ ∃ x, t = (s.withErr .ok).withH x) ∨
    (i = .storeh ∧ t = (s.withErr .ok).withMem (storeHeader s.mem s.h)) ∨
    (i = .hash ∧ hashOutOfRange s ∧ t = s.withErr .range) ∨
    (i = .hash ∧ ¬ hashOutOfRange s ∧ ∃ x, t = ((s.withErr .ok).withH x).withMem (storeHeader s.mem x)) ∨
    (i = .format ∧ ∃ w1 w2 w3 w4, t = (s.withErr .ok).withHex (hexRegs (fmt w1 w2 w3 w4))) := by
  cases i with
  | nop =>
    simp only [exec, execNop, complete_eq_next] at h
    exact .inl ⟨rfl, h.symm⟩
  | add32 | xor32 | mul32 | rotl32 | shr32 =>
    simp only [exec, execAdd32, execXor32, execMul32, execRotl32, execShr32, complete_eq_next] at h
    exact .inr (.inl ⟨by simp, _, h.symm⟩)
  | init | block | tail | final =>
    simp only [exec, execInit, execBlock, execTail, execFinal, complete_eq_next] at h
    exact .inr (.inr (.inl ⟨by simp, _, h.symm⟩))
  | storeh =>
    simp only [exec, execStoreh, complete_eq_next] at h
    exact .inr (.inr (.inr (.inl ⟨rfl, h.symm⟩)))
  | hash =>
    by_cases hr : hashOutOfRange s
    · simp only [exec, execHash, if_pos hr, raiseCmdError_eq_next] at h
      exact .inr (.inr (.inr (.inr (.inl ⟨rfl, hr, h.symm⟩))))
    · simp only [exec, execHash, if_neg hr, complete_eq_next] at h
      exact .inr (.inr (.inr (.inr (.inr (.inl ⟨rfl, hr, _, h.symm⟩)))))
  | format =>
    simp only [exec, execFormat, complete_eq_next] at h
    exact .inr (.inr (.inr (.inr (.inr (.inr ⟨rfl, _, _, _, _, h.symm⟩)))))

/-- A register access that is not refused has the shape of R35. -/
theorem regAccessRefusal_eq_none {off width : Nat} :
    regAccessRefusal off width = none ↔ width = 4 ∧ off < 256 ∧ off % 4 = 0 := by
  unfold regAccessRefusal
  split_ifs <;> simp_all

/-- The register map has each register at its offset (R22: no two names alias). -/
theorem Reg.ofOffset_offset (r : Reg) : Reg.ofOffset r.offset = some r := by
  cases r with
  | hex j => revert j; decide
  | _ => decide

theorem Reg.offset_of_ofOffset {off : Nat} {r : Reg} (h : Reg.ofOffset off = some r) : r.offset = off := by
  have := List.find?_some h
  simpa using this

/-- Every way a step answers a next state: idle; a command; a rejected word; a register write; a write to a reserved offset; a register read; a buffer write; a buffer read. -/
theorem step_cases {s t : State} (h : step s = .next t) :
    (s.host = [] ∧ t = s) ∨
    (∃ w i rest, s.host = .regWrite 0 4 w :: rest ∧ decode w = .ok i ∧ exec i (s.withHost rest) = .next t) ∨
    (∃ w e rest, s.host = .regWrite 0 4 w :: rest ∧ decode w = .error e ∧
      t = (s.withHost rest).withErr (decodeErrCode e)) ∨
    (∃ r v rest, s.host = .regWrite r.offset 4 v :: rest ∧ r ≠ .cmd ∧ t = writeReg (s.withHost rest) r v) ∨
    (∃ off v rest, s.host = .regWrite off 4 v :: rest ∧ Reg.ofOffset off = none ∧ t = s.withHost rest) ∨
    (∃ off rest, s.host = .regRead off 4 :: rest ∧ off < 256 ∧ off % 4 = 0 ∧
      t = (s.withHost rest).reply (.reg off (readOffset (s.withHost rest) off))) ∨
    (∃ a bs rest, s.host = .memWrite a bs :: rest ∧ bufferAccessWf s.cap a bs.length = true ∧
      t = (s.withHost rest).withMem (writeBytes s.mem a bs)) ∨
    (∃ a n rest, s.host = .memRead a n :: rest ∧ bufferAccessWf s.cap a n = true ∧
      t = (s.withHost rest).reply (.bytes a (readBytes s.mem a n))) := by
  unfold step nextAccess at h
  cases hh : s.host with
  | nil => simp only [hh, Host.Outcome.next.injEq] at h; exact .inl ⟨rfl, h.symm⟩
  | cons op rest =>
    simp only [hh] at h
    right
    cases op with
    | regWrite off width v =>
      simp only [hostStep, hostRegWrite] at h
      split at h
      · simp at h
      · rename_i hn
        obtain ⟨rfl, -, -⟩ := regAccessRefusal_eq_none.1 hn
        unfold writeOffset at h
        split at h
        · rename_i ho
          obtain rfl : 0 = off := Reg.offset_of_ofOffset ho
          unfold command at h
          split at h
          · rename_i i hd
            exact .inl ⟨v, i, rest, rfl, hd, h⟩
          · rename_i e hd
            exact .inr (.inl ⟨v, e, rest, rfl, hd, ((raiseCmdError_eq_next _ _ _).1 h).symm⟩)
        · rename_i r ho hr
          obtain rfl := Reg.offset_of_ofOffset hr
          simp only [Host.Outcome.next.injEq] at h
          exact .inr (.inr (.inl ⟨r, v, rest, rfl, ho, h.symm⟩))
        · rename_i ho
          simp only [Host.Outcome.next.injEq] at h
          exact .inr (.inr (.inr (.inl ⟨off, v, rest, rfl, ho, h.symm⟩)))
    | regRead off width =>
      simp only [hostStep, hostRegRead] at h
      split at h
      · simp at h
      · rename_i hn
        obtain ⟨rfl, h1, h2⟩ := regAccessRefusal_eq_none.1 hn
        simp only [Host.Outcome.next.injEq] at h
        exact .inr (.inr (.inr (.inr (.inl ⟨off, rest, rfl, h1, h2, h.symm⟩))))
    | memWrite a bs =>
      by_cases hw : bufferAccessWf s.cap a bs.length = true
      · simp only [hostStep, hostMemWrite, State.withHost_cap, State.withHost_mem, hw, if_true,
          Host.Outcome.next.injEq] at h
        exact .inr (.inr (.inr (.inr (.inr (.inl ⟨a, bs, rest, rfl, hw, h.symm⟩)))))
      · simp [hostStep, hostMemWrite, hw] at h
    | memRead a n =>
      by_cases hw : bufferAccessWf s.cap a n = true
      · simp only [hostStep, hostMemRead, State.withHost_cap, State.withHost_mem, hw, if_true,
          Host.Outcome.next.injEq] at h
        exact .inr (.inr (.inr (.inr (.inr (.inr ⟨a, n, rest, rfl, hw, h.symm⟩)))))
      · simp [hostStep, hostMemRead, hw] at h

end Sys2Proof.Machine
end

