-- ==== Sys2Proof/Tests/Slice0.lean ====
section
/-! SUPPORT. Tests: every command word decoded, ill-formed terms refused, at most two vectors of spec/95_test_vectors.md per command, and a witness for the hypotheses of every statement. Expected values are the spec's. -/

open Sys2Proof Sys2Proof.Machine Sys2Proof.Claims

namespace Sys2Proof.Tests

/-- One field of the next state, none where a step stops. -/
def after {α : Type} (o : Host.Outcome State Fault Refusal) (f : State → α) : Option α :=
  match o with
  | .next t => some (f t)
  | .fault _ => none
  | .refused _ => none

/-- The refusal of a step, none where it is not refused. -/
def refusal (o : Host.Outcome State Fault Refusal) : Option Refusal :=
  match o with
  | .refused r => some r
  | .next _ => none
  | .fault _ => none

/-- A state whose next statement is a register access or buffer access, from reset. -/
def hosting (op : HostOp) : State := State.reset.withHost [op]

/-- From reset, with mixer operands. -/
def mixing (a b : Word) : State := (State.reset.withMixA a).withMixB b

/-- Consecutive bytes as a memory in canonical form. -/
def bytesAt (a : Nat) (bs : List Byte) : Memory := writeBytes [] a bs

/-- From reset, with a payload, its length and no seed. -/
def hashing (bs : List Byte) (len : Word) : State := (State.reset.withMem (bytesAt 16 bs)).withLen len

/-! ## Decoding: every command's word as R83 writes it out -/

theorem test_decode_nop : decode 0b00000000000000000000000000000000 = .ok .nop := by decide
theorem test_decode_add32 : decode 0b00000000000000000000000000000001 = .ok .add32 := by decide
theorem test_decode_xor32 : decode 0b00000000000000000000000100000001 = .ok .xor32 := by decide
theorem test_decode_mul32 : decode 0b00000000000000000000001000000001 = .ok .mul32 := by decide
theorem test_decode_rotl32 : decode 0b00000000000000000000001100000001 = .ok .rotl32 := by decide
theorem test_decode_shr32 : decode 0b00000000000000000000010000000001 = .ok .shr32 := by decide
theorem test_decode_init : decode 0b00000000000000000000000000010000 = .ok .init := by decide
theorem test_decode_block : decode 0b00000000000000000000000000010001 = .ok .block := by decide
theorem test_decode_tail : decode 0b00000000000000000000000000010010 = .ok .tail := by decide
theorem test_decode_final : decode 0b00000000000000000000000000010011 = .ok .final := by decide
theorem test_decode_storeh : decode 0b00000000000000000000000000010100 = .ok .storeh := by decide
theorem test_decode_hash : decode 0b00000000000000000000000000100000 = .ok .hash := by decide
theorem test_decode_format : decode 0b00000000000000000000000000110000 = .ok .format := by decide

/-- 95 section 2.8: the rows that are errors. -/
theorem test_decode_errors :
    decode 0x00000002 = .error .illegalOpcode ∧ decode 0x000000FF = .error .illegalOpcode ∧
    decode 0x00000802 = .error .illegalOpcode ∧ decode 0x00000701 = .error .reservedFunction ∧
    decode 0x00000110 = .error .reservedFunction ∧ decode 0x00000100 = .error .reservedFunction ∧
    decode 0x80000000 = .error .reservedBits := by decide

theorem test_decodeTableWord : decodeTableWord 32 0x20 = some .hash ∧ decodeTableWord 32 0x15 = none := by decide

theorem test_withFetchWord_runs_the_word :
    after (step (State.reset.withFetchWord 32 0x401)) (fun t => (t.err, t.host)) = some (.ok, []) := by decide

/-! ## Well-formedness: an ill-formed access for each check -/

theorem test_wf_width : HostOp.wf 4096 (.regWrite 0x08 2 0) = false := by decide
theorem test_wf_window : HostOp.wf 4096 (.regRead 0x100 4) = false := by decide
theorem test_wf_alignment : HostOp.wf 4096 (.regRead 0x0A 4) = false := by decide
theorem test_wf_buffer_write : HostOp.wf 4096 (.memWrite 4095 [1, 2]) = false := by decide
theorem test_wf_buffer_read : HostOp.wf 4096 (.memRead 4096 1) = false := by decide
theorem test_wf_instr : Instr.wf .hash = true := by decide

/-! ## One vector or two per command (40_mixer.md to 45_hex_formatter.md, 95 sections 2 and 3) -/

theorem test_nop : after (exec .nop (State.reset.withErr .range)) (·.err) = some .ok := by decide
theorem test_add32 : after (exec .add32 (mixing 0x12345678 0x9ABCDEF0)) (·.mixY) = some 0xACF13568 := by decide
theorem test_add32_wraps : after (exec .add32 (mixing 1 0xFFFFFFFF)) (·.mixY) = some 0 := by decide
theorem test_xor32 : after (exec .xor32 (mixing 0x12345678 0x9ABCDEF0)) (·.mixY) = some 0x88888888 := by decide
theorem test_mul32 : after (exec .mul32 (mixing 0x12345678 0x9ABCDEF0)) (·.mixY) = some 0x242D2080 := by decide
theorem test_mul32_wraps : after (exec .mul32 (mixing 0xFFFFFFFF 0xFFFFFFFF)) (·.mixY) = some 1 := by decide
theorem test_rotl32 : after (exec .rotl32 (mixing 0x80000001 0x1F)) (·.mixY) = some 0xC0000000 := by decide
theorem test_rotl32_ignores_high_bits : after (exec .rotl32 (mixing 0x12345678 0xFFFFFFE4)) (·.mixY) = some 0x23456781 := by decide
theorem test_shr32 : after (exec .shr32 (mixing 0x80000001 0x1F)) (·.mixY) = some 1 := by decide
theorem test_shr32_by_32 : after (exec .shr32 (mixing 0x12345678 0x20)) (·.mixY) = some 0x12345678 := by decide
theorem test_init : after (exec .init (State.reset.withSeed 0x9747B28C)) (·.h) =
    some ⟨0x9747B28C, 0x9747B28C, 0x9747B28C, 0x9747B28C⟩ := by decide
/-- 95 B4. -/
theorem test_block : after (exec .block (State.reset.withK ⟨0x64636261, 0x68676665, 0x6C6B6A69, 0x706F6E6D⟩)) (·.h) =
    some ⟨0x2F76AA7C, 0x3F3E5029, 0xB119A7A7, 0xC7B383A4⟩ := by decide
/-- 95 B2: lane 4 adds the new h1. -/
theorem test_block_lane4 : after (exec .block (State.reset.withH ⟨1, 2, 3, 4⟩)) (·.h) =
    some ⟨0x5644CD25, 0x0BDEA756, 0x96D49C49, 0xE206BCD0⟩ := by decide
theorem test_tail_5 : after (exec .tail ((State.reset.withK ⟨1, 1, 1, 1⟩).withLen 5)) (·.h) =
    some ⟨0x9378F1B5, 0x04620F86, 0, 0⟩ := by decide
theorem test_tail_13 : after (exec .tail ((State.reset.withK ⟨1, 1, 1, 1⟩).withLen 13)) (·.h) =
    some ⟨0x9378F1B5, 0x04620F86, 0xA2437F92, 0x62AF7FFA⟩ := by decide
theorem test_final : after (exec .final ((State.reset.withH ⟨1, 2, 3, 4⟩).withLen 16)) (·.h) =
    some ⟨0x75150DF8, 0x7EAB788B, 0x59B28D82, 0xCB492334⟩ := by decide
theorem test_storeh : after (exec .storeh (State.reset.withH ⟨0x11223344, 0, 0, 0xAABBCCDD⟩)) (fun t => readBytes t.mem 0 16) =
    some [0x44, 0x33, 0x22, 0x11, 0, 0, 0, 0, 0, 0, 0, 0, 0xDD, 0xCC, 0xBB, 0xAA] := by decide
/-- 95 H13: 17 bytes, one block and a one-byte tail. -/
theorem test_hash_17 : after (exec .hash (hashing [0x30, 0x31, 0x32, 0x33, 0x34, 0x35, 0x36, 0x37, 0x38, 0x39, 0x61, 0x62,
      0x63, 0x64, 0x65, 0x66, 0x67] 17)) (·.h) =
    some ⟨0x7F1F9836, 0x516B3876, 0xAC29C030, 0xF9D6F374⟩ := by decide
/-- 95 section 2.9: the padding is used as read. -/
theorem test_hash_padding : after (exec .hash (hashing [0x61, 0x62, 0x63, 0xFF] 3)) (fun t => (t.h, t.err)) =
    some (⟨0x6F2D8F5B, 0x2088DD96, 0x2088DD96, 0x2088DD96⟩, .ok) := by decide
/-- 95 section 2.7, second row. -/
theorem test_format : after (exec .format (State.reset.withMem (bytesAt 0 [0xEF, 0xBE, 0xAD, 0xDE, 1, 0, 0, 0, 0, 0xEF, 0xCD,
      0xAB, 0xFF, 0xFF, 0xFF, 0xFF]))) (·.hex.toList) =
    some [0x65647830, 0x65626461, 0x302C6665, 0x30303078, 0x30303030, 0x78302C31, 0x64636261, 0x30306665, 0x6678302C,
      0x66666666, 0x00666666] := by decide

/-! ## Errors and the host's accesses -/

/-- 95 section 2.8, CAP = 4096: 4080 is the largest legal length. -/
theorem test_range : after (exec .hash (State.reset.withLen 0xFF1)) (·.err) = some .range := by decide
theorem test_step_illegal : after (step (hosting (.regWrite 0 4 0xFFFFFFFF))) (·.err) = some .illegalOpcode := by decide
theorem test_step_reserved : after (step (hosting (.regWrite 0 4 0x00000820))) (·.err) = some .reservedField := by decide
theorem test_write_seed : after (step (hosting (.regWrite 0x08 4 0x9747B28C))) (·.seed) = some 0x9747B28C := by decide
/-- 95 P2 step 6. -/
theorem test_write_mixY_ignored : after (step (hosting (.regWrite 0x38 4 0x12345678))) (·.mixY) = some 0 := by decide
theorem test_read_capacity : after (step (hosting (.regRead 0x3C 4))) (·.replies) = some [.reg 0x3C 0x0000000C] := by decide
theorem test_refused_width : refusal (step (hosting (.regRead 0x04 1))) = some .regAccessWidth := by decide
theorem test_refused_window : refusal (step (hosting (.regRead 0x100 4))) = some .regAccessOutsideWindow := by decide
theorem test_refused_alignment : refusal (step (hosting (.regWrite 0x06 4 0))) = some .regAccessMisaligned := by decide
theorem test_digest_abc : digest [0x61, 0x62, 0x63] 0x9747B28C = ⟨0xD6359EAF, 0x48FC3AC3, 0x48FC3AC3, 0x48FC3AC3⟩ := by decide

/-! ## Witnesses: a state and operands that meet the hypotheses of each statement that has any -/

theorem witness_StepRunsTheDecodedCommand :
    (hosting (.regWrite 0x00 4 0x10)).host = .regWrite 0x00 4 0x10 :: [] ∧ decode 0x10 = .ok .init := by decide

theorem witness_StepReportsARejectedWord :
    (hosting (.regWrite 0x00 4 0x501)).host = .regWrite 0x00 4 0x501 :: [] ∧ decode 0x501 = .error .reservedFunction := by
  decide

theorem witness_IdleStepChangesNothing : State.reset.host = [] := by decide

theorem witness_WellFormedHostProgramRunsToItsEnd :
    ∀ op ∈ [HostOp.regWrite 0x00 4 0x20, .regRead 0xFC 4, .memWrite 4094 [1, 2], .memRead 0 4096],
      op.wf State.reset.cap = true := by decide

theorem witness_RotationHasItsArithmeticForm : 0 < (1 : BitVec 5).toNat ∧ 0 < (31 : BitVec 5).toNat := by decide

theorem witness_CommandWordIsDecodedInOrder :
    0x02 ∉ legalOpcodes ∧ (0x820 : Word).toNat / 2048 ≠ 0 ∧ (0x501 : Word).toNat / 256 % 8 = 5 ∧
    (0x701 : Word).toNat / 256 % 8 = 7 ∧ (0x110 : Word).toNat / 256 % 8 ≠ 0 ∧ (0x01, 4, Instr.shr32) ∈ selected := by decide

theorem witness_HashOutOfRangeOnlySetsRange :
    2 ^ (State.reset.withLen 0xFF1).capacity.m < 16 + (State.reset.withLen 0xFF1).len.toNat := by decide

/-- The largest legal length, for HashRunsBlocksTailAndFinalization, and HashEqualsTheStepCommandSequence; its blocks are 0 to 254, and of 4079 bytes the tail has 15. -/
theorem witness_HashInRange :
    16 + (State.reset.withLen 0xFF0).len.toNat ≤ 2 ^ (State.reset.withLen 0xFF0).capacity.m ∧
    254 < (State.reset.withLen 0xFF0).len.toNat / 16 ∧
    16 + (State.reset.withLen 0xFEF).len.toNat ≤ (State.reset.withLen 0xFEF).cap ∧
    4 * 3 < (State.reset.withLen 0xFEF).len.toNat % 16 := by decide

/-- Two states that agree on the payload and its padding only: another capacity, other registers, another byte behind the boundary. -/
theorem witness_HashDependsOnSeedLengthAndPayload :
    let s := hashing [0x61, 0x62, 0x63, 0, 5] 3
    let s' := { hashing [0x61, 0x62, 0x63] 3 with capacity := ⟨32, by decide, by decide⟩, mixA := 7 }
    s ≠ s' ∧ s.seed = s'.seed ∧ s.len = s'.len ∧ 16 + s.len.toNat ≤ s.cap ∧ 16 + s'.len.toNat ≤ s'.cap ∧
    ∀ a, 16 ≤ a → a < 16 + 4 * ((s.len.toNat + 3) / 4) → readByte s.mem a = readByte s'.mem a := by
  refine ⟨by decide, by decide, by decide, by decide, by decide, fun a h1 h2 => ?_⟩
  have h3 : a < 20 := h2
  interval_cases a <;> decide

theorem witness_HashIsTheDigestOfThePayload :
    16 + (hashing [0x61, 0x62, 0x63] 3).len.toNat ≤ (hashing [0x61, 0x62, 0x63] 3).cap ∧
    (hashing [0x61, 0x62, 0x63] 3).PPad := by
  refine ⟨by decide, fun a h1 h2 => ?_⟩
  have h3 : 19 ≤ a := h1
  have h4 : a < 20 := h2
  interval_cases a
  decide

theorem witness_EmptyInputHash : State.reset.len = 0 ∧ State.reset.seed = 0 := by decide

theorem witness_ShortInputsLeaveThreeEqualLanes : (State.reset.withLen 4).len.toNat ≤ 4 := by decide

/-- The hypothesis `exec i s = .next t` of CommandsWriteOnlyTheHeader and CommandsWriteOnlyTheirRegisters, for a command of each clause. -/
theorem witness_CommandAnswersNext :
    exec .nop State.reset = .next State.reset ∧
    exec .hash (State.reset.withLen 0xFF1) = .next ((State.reset.withLen 0xFF1).withErr .range) ∧
    exec .storeh State.reset = .next State.reset := by
  refine ⟨rfl, ?_, ?_⟩
  · simp only [exec, execHash, if_pos (show hashOutOfRange (State.reset.withLen 0xFF1) by decide), raiseCmdError]
  · simp only [exec, execStoreh, complete]
    exact congrArg Host.Outcome.next (by decide)

/-- Two memories that agree below CAP and differ at CAP. -/
theorem witness_CommandsStayInsideTheBuffer :
    readByte [] 4096 ≠ readByte [(4096, 1)] 4096 ∧
    ∀ a < 2 ^ State.reset.capacity.m, readByte State.reset.mem a = readByte [(4096, 1)] a := by
  refine ⟨by decide, fun a ha => ?_⟩
  have h : (4096 : Nat) ≠ a := by
    have : a < 4096 := ha
    omega
  simp [readByte, State.reset, State.launch, h]

theorem witness_OnlyMixCommandsReadTheMixer :
    Instr.hash ∉ [Instr.add32, .xor32, .mul32, .rotl32, .shr32] := by decide

theorem witness_HostReadsBackWhatItWrote :
    (State.reset.withHost [.memWrite 4094 [1, 2], .memRead 4094 2]).host =
      .memWrite 4094 [1, 2] :: .memRead 4094 [(1 : Byte), 2].length :: [] ∧
    4094 + [(1 : Byte), 2].length ≤ State.reset.cap := by decide

theorem witness_HostAccessBeyondTheBufferFaults :
    (hosting (.memWrite 4095 [1, 2])).host = .memWrite 4095 [1, 2] :: [] ∧ ([1, 2] : List Byte) ≠ [] ∧
    (hosting (.memWrite 4095 [1, 2])).cap < 4095 + ([1, 2] : List Byte).length ∧
    (hosting (.memRead 4096 1)).host = .memRead 4096 1 :: [] ∧ (hosting (.memRead 4096 1)).cap < 4096 + 1 := by decide

theorem witness_HostReadReturnsTheRegister :
    (hosting (.regRead 0x68 4)).host = .regRead 0x68 4 :: [] ∧ 0x68 < 256 ∧ 0x68 % 4 = 0 ∧
    (hosting (.regRead 0xFC 4)).host = .regRead 0xFC 4 :: [] ∧ 0xFC < 256 ∧ 0xFC % 4 = 0 := by decide

theorem witness_HostWriteSetsOnlyReadWriteRegisters :
    (hosting (.regWrite 0x00 4 0x20)).host = .regWrite 0x00 4 0x20 :: [] ∧ 0 < 256 ∧ 0 % 4 = 0 ∧
    (hosting (.regWrite 0x34 4 9)).host = .regWrite 0x34 4 9 :: [] ∧ 0x34 < 256 ∧ 0x34 % 4 = 0 ∧
    (hosting (.regWrite 0x38 4 9)).host = .regWrite 0x38 4 9 :: [] ∧ 0x38 % 4 = 0 := by decide

theorem witness_RegisterAccessIsRefusedExactlyOutsideItsShape :
    (hosting (.regRead 0x04 2)).host = .regRead 0x04 2 :: [] ∧
    (hosting (.regWrite 0x00 4 0x20)).host = .regWrite 0x00 4 0x20 :: [] := by decide

theorem witness_CapacityIsConstantForALaunch : step State.reset = .next State.reset := rfl

theorem witness_ResetAndLaunchMeetTheInvariant :
    Memory.wf [(0, 1), (4095, 0xFF)] ∧ ∀ x ∈ ([(0, 1), (4095, 0xFF)] : Memory), x.1 < 2 ^ Config.resetLogCap.m := by decide

/-- A state that meets the invariant and is no reset state, and a step of it. -/
theorem witness_StepKeepsTheInvariant :
    ((hosting (.regWrite 0x08 4 9)).withMem [(4095, 1)]).Inv ∧
    step ((hosting (.regWrite 0x08 4 9)).withMem [(4095, 1)]) = .next ((State.reset.withMem [(4095, 1)]).withSeed 9) := by
  refine ⟨by decide, rfl⟩

theorem witness_HexRegistersHoldZeroOrText : HexZeroOrText State.reset ∧ step State.reset = .next State.reset :=
  ⟨.inl rfl, rfl⟩

theorem witness_HostStatementsExpandAsListed : ((0x301 : Word), Instr.rotl32) ∈ commandWords := by decide

end Sys2Proof.Tests
end

section
/-! The header of the buffer memory: STOREH and HASH leave the four lanes in it, little-endian (R53, R201, R203). -/

namespace Sys2Proof.Machine

open Sys2Proof.Claims

theorem byteOf_toNat (w : Word) (j : Nat) : (byteOf w j).toNat = byteNat w j := by
  simp [byteOf, byteNat, Nat.shiftRight_eq_div_pow, Nat.pow_mul]

/-- R53: byte `j` of a word write, as a number. -/
theorem readByte_writeWord_toNat (m : Memory) (a : Nat) (v : Word) {j : Nat} (hj : j < 4) :
    (readByte (writeWord m a v) (a + j)).toNat = byteNat v j := by
  rw [readByte_writeWord, ← byteOf_toNat]
  interval_cases j <;> simp

/-- R201: each header byte is a byte of the lane it belongs to; the writes of the later lanes leave it alone. -/
theorem readByte_storeHeader (m : Memory) (h : Lanes) {a : Nat} (ha : a < 16) :
    (readByte (storeHeader m h) a).toNat = headerByte h a := by
  unfold storeHeader headerByte
  split_ifs with h4 h8 h12
  · rw [readByte_writeWord_of_outside (by omega), readByte_writeWord_of_outside (by omega),
      readByte_writeWord_of_outside (by omega)]
    simpa using readByte_writeWord_toNat m 0 h.h1 h4
  · rw [readByte_writeWord_of_outside (by omega), readByte_writeWord_of_outside (by omega)]
    obtain ⟨j, rfl⟩ := Nat.exists_eq_add_of_le (Nat.not_lt.1 h4)
    simpa using readByte_writeWord_toNat _ 4 h.h2 (j := j) (by omega)
  · rw [readByte_writeWord_of_outside (by omega)]
    obtain ⟨j, rfl⟩ := Nat.exists_eq_add_of_le (Nat.not_lt.1 h8)
    simpa using readByte_writeWord_toNat _ 8 h.h3 (j := j) (by omega)
  · obtain ⟨j, rfl⟩ := Nat.exists_eq_add_of_le (Nat.not_lt.1 h12)
    simpa using readByte_writeWord_toNat _ 12 h.h4 (j := j) (by omega)

end Sys2Proof.Machine
end

section
/-! HASH refines the digest of the byte list in the buffer (R1, R203): the k words of the reference are the words HASH reads, for complete blocks always and for the tail under P_PAD (R66, R163). -/

namespace Sys2Proof.Machine

/-! ## The bytes of the buffer as a list -/

@[simp] theorem length_readBytes (m : Memory) (a n : Nat) : (readBytes m a n).length = n := by simp [readBytes]

theorem getD_readBytes (m : Memory) (a n i : Nat) :
    (readBytes m a n).getD i 0 = if i < n then readByte m (a + i) else 0 := by
  by_cases h : i < n <;> simp [readBytes, h]

theorem drop_readBytes (m : Memory) (a n d : Nat) : (readBytes m a n).drop d = readBytes m (a + d) (n - d) := by
  apply List.ext_getElem
  · simp
  · simp [readBytes, Nat.add_assoc]

/-! ## The words of the reference are the words HASH reads -/

/-- A padded word is the word in memory if the bytes of it behind the end of the sequence hold 0x00. -/
theorem paddedWord_readBytes {m : Memory} {a n o : Nat}
    (hpad : ∀ j < 4, n ≤ o + j → readByte m (a + (o + j)) = 0) :
    paddedWord (readBytes m a n) o = readWord m (a + o) := by
  have hbyte : ∀ j < 4, (readBytes m a n).getD (o + j) 0 = readByte m (a + o + j) := by
    intro j hj
    rw [getD_readBytes, Nat.add_assoc]
    split_ifs with h
    · rfl
    · exact (hpad j hj (Nat.not_lt.1 h)).symm
  have h0 := hbyte 0 (by omega)
  simp only [Nat.add_zero] at h0
  simp only [paddedWord, readWord, h0, hbyte 1 (by omega), hbyte 2 (by omega), hbyte 3 (by omega)]

/-- R163: a padded word that begins behind the end of the sequence is 0. -/
theorem paddedWord_readBytes_of_le {m : Memory} {a n o : Nat} (h : n ≤ o) : paddedWord (readBytes m a n) o = 0 := by
  have hbyte : ∀ i, o ≤ i → (readBytes m a n).getD i 0 = 0 := fun i hi => by
    rw [getD_readBytes, if_neg (by omega)]
  simp only [paddedWord, hbyte o (by omega), hbyte (o + 1) (by omega), hbyte (o + 2) (by omega), hbyte (o + 3) (by omega)]
  rfl

theorem headWords_readBytes_of_block {m : Memory} {a n : Nat} (h : 16 ≤ n) :
    headWords (readBytes m a n) = readKWords m a := by
  have hword : ∀ o, o ≤ 12 → paddedWord (readBytes m a n) o = readWord m (a + o) :=
    fun o ho => paddedWord_readBytes fun j hj hn => absurd hn (by omega)
  simp only [headWords, readKWords, hword 0 (by omega), hword 4 (by omega), hword 8 (by omega), hword 12 (by omega),
    Nat.add_zero]

/-- R163, R205: with zero bytes from the end of the tail to the next 4-byte boundary, the tail words HASH reads are the padded words of the bytes left. -/
theorem headWords_readBytes_of_tail {m : Memory} {tb t : Nat}
    (hpad : ∀ i, t ≤ i → i < 4 * ((t + 3) / 4) → readByte m (tb + i) = 0) :
    headWords (readBytes m tb t) = tailWords m tb t := by
  have hword : ∀ q, paddedWord (readBytes m tb t) (4 * q) = if 4 * q < t then readWord m (tb + 4 * q) else 0 := by
    intro q
    split_ifs with h
    · exact paddedWord_readBytes fun j hj hn => hpad _ hn (by omega)
    · exact paddedWord_readBytes_of_le (Nat.not_lt.1 h)
  rw [tailWords_eq, headWords]
  exact congr (congr (congr (congrArg KWords.mk (hword 0)) (hword 1)) (hword 2)) (hword 3)

/-! ## The lanes -/

/-- The block loop of HASH runs through the lanes of the reference, as long as the blocks are complete. -/
theorem digestBlocks_readBytes (m : Memory) (h : Lanes) {len n : Nat} (hn : 16 * n ≤ len) :
    digestBlocks h (readBytes m payloadStart len) n = hashBlocks m h n := by
  induction n with
  | zero => rfl
  | succ n ih =>
    have hwords : headWords ((readBytes m payloadStart len).drop (16 * n)) = blockWords m n := by
      rw [drop_readBytes, headWords_readBytes_of_block (by omega), blockWords]
    rw [digestBlocks, hashBlocks, ih (by omega), hwords]

/-- R66, seen from the last complete block: the padding of the payload is the padding of its tail. -/
theorem State.PPad.tail {s : State} (hpad : s.PPad) {i : Nat} (hi : s.len.toNat % 16 ≤ i)
    (hlt : i < 4 * ((s.len.toNat % 16 + 3) / 4)) :
    readByte s.mem (payloadStart + 16 * (s.len.toNat / 16) + i) = 0 :=
  hpad _ (by omega) (by omega)

/-- The lanes HASH computes are the digest of the payload (R1, R203). -/
theorem hashLanes_eq_digest {s : State} (hpad : s.PPad) :
    hashLanes s.mem s.len s.seed = digest s.payload s.seed := by
  have hleft : s.payload.drop (16 * (s.len.toNat / 16)) =
      readBytes s.mem (payloadStart + 16 * (s.len.toNat / 16)) (s.len.toNat % 16) := by
    rw [State.payload, drop_readBytes, show s.len.toNat - 16 * (s.len.toNat / 16) = s.len.toNat % 16 by omega]
  have hlen : s.payload.length = s.len.toNat := length_readBytes ..
  have hblocks : digestBlocks (seedLanes s.seed) s.payload (s.len.toNat / 16) =
      hashBlocks s.mem (seedLanes s.seed) (s.len.toNat / 16) := digestBlocks_readBytes _ _ (by omega)
  simp only [digest, hashLanes, hlen, hleft, length_readBytes, hblocks,
    headWords_readBytes_of_tail fun _ => hpad.tail, BitVec.ofNat_toNat, BitVec.setWidth_eq]

/-- Settles O25: within the range HASH leaves `hashLanes` in the lanes and the header, and `hashLanes` is the digest of the payload. -/
theorem hashIsTheDigestOfThePayload : Obligations.HashIsTheDigestOfThePayload := by
  intro s hfits hpad
  refine ⟨_, exec_hash_of_fits hfits, ?_, fun a ha => ?_⟩
  · rw [State.withMem_h, State.withH_h, hashLanes_eq_digest hpad]
  · rw [State.withMem_mem, hashLanes_eq_digest hpad, readByte_storeHeader _ _ ha]

end Sys2Proof.Machine
end

section
/-! The register window (R22 to R35): where the registers lie, what a read and a write at each offset do, and what they read right after launch. -/

namespace Sys2Proof.Machine

open Sys2Proof.Claims

/-! ## Named and reserved offsets -/

theorem Reg.offset_lt (r : Reg) : r.offset < 0x6C := by
  cases r with
  | hex j => simp only [Reg.offset]; omega
  | _ => decide

theorem Reg.offset_inj {r r' : Reg} : r.offset = r'.offset ↔ r = r' := by
  refine ⟨fun h => Option.some.inj ?_, congrArg _⟩
  rw [← Reg.ofOffset_offset r, h, Reg.ofOffset_offset]

/-- R22, R32: the named offsets are all the multiples of 4 below 0x6C, so a reserved offset of the window lies behind them. -/
theorem le_of_ofOffset_eq_none {off : Nat} (h4 : off % 4 = 0) (h : Reg.ofOffset off = none) : 0x6C ≤ off := by
  have hnamed : ∀ j < 27, Reg.ofOffset (4 * j) ≠ none := by decide
  by_contra hlt
  exact hnamed (off / 4) (by omega) (by rwa [show 4 * (off / 4) = off by omega])

/-! ## Reading -/

@[simp] theorem readOffset_offset (s : State) (r : Reg) : readOffset s r.offset = readReg s r := by
  simp only [readOffset, Reg.ofOffset_offset]

theorem readOffset_of_reserved (s : State) {off : Nat} (h : Reg.ofOffset off = none) : readOffset s off = 0 := by
  simp only [readOffset, h]

theorem registerAt_offset (s : State) (r : Reg) : registerAt s r.offset = readReg s r := by
  cases r with
  | status => cases hs : s.err <;> simp [registerAt, Reg.offset, readReg, hs] <;> rfl
  | hex j =>
    have hj : 0x40 + 4 * j.val - 0x40 = 4 * j.val := by omega
    simp (disch := omega) only [registerAt, Reg.offset, readReg, if_neg, if_pos, hj]
    simp
  | _ => rfl

theorem registerAt_of_le (s : State) {off : Nat} (h : 0x6C ≤ off) : registerAt s off = 0 := by
  simp (disch := omega) only [registerAt, if_neg]

/-- R33: at every offset a host read may name, the value is the one the register map gives. -/
theorem readOffset_eq_registerAt (s : State) {off : Nat} (h4 : off % 4 = 0) : readOffset s off = registerAt s off := by
  cases h : Reg.ofOffset off with
  | none => rw [readOffset_of_reserved s h, registerAt_of_le s (le_of_ofOffset_eq_none h4 h)]
  | some r => rw [← Reg.offset_of_ofOffset h, readOffset_offset, registerAt_offset]

/-- A state whose registers but CAPACITY all read 0 reads so at every offset, named or not. -/
theorem readOffset_of_readReg_eq_zero {s : State} (h : ∀ r ≠ .capacity, readReg s r = 0) (off : Nat) :
    readOffset s off = if off = 0x3C then BitVec.ofNat 32 s.capacity.m else 0 := by
  cases ho : Reg.ofOffset off with
  | none =>
    have hne : off ≠ 0x3C := by rintro rfl; exact absurd ho (by decide)
    rw [readOffset_of_reserved s ho, if_neg hne]
  | some r =>
    obtain rfl := Reg.offset_of_ofOffset ho
    rw [readOffset_offset]
    split_ifs with hc
    · obtain rfl : r = .capacity := Reg.offset_inj.1 hc
      rfl
    · exact h r fun hr => hc (congrArg Reg.offset hr)

/-- R30: `m` is at most 32, so CAPACITY holds it whole. -/
theorem readOffset_capacity_toNat (s : State) : (readOffset s 0x3C).toNat = s.capacity.m := by
  have hhi := s.capacity.hi
  have hread : readOffset s 0x3C = BitVec.ofNat 32 s.capacity.m := readOffset_offset s .capacity
  rw [hread, BitVec.toNat_ofNat, Nat.mod_eq_of_lt (by omega)]

/-- Settles O38: STATUS is at 0x04 and reads the code of ERR, one case per code. -/
theorem statusReadsTheErrorCode : Obligations.StatusReadsTheErrorCode := by
  intro s
  have hstatus : readOffset s 0x04 = statusWord s.err := readOffset_offset s .status
  rw [hstatus]
  cases s.err <;> decide

/-! ## Reset values -/

theorem readReg_launch (c : LogCap) (mem : Memory) (prog : List HostOp) :
    ∀ r ≠ .capacity, readReg (State.launch c mem prog) r = 0 := by
  intro r hr
  cases r with
  | capacity => exact absurd rfl hr
  | hex j =>
    have hzero : ∀ j : Fin 11, (#v[0, 0, 0, 0, 0, 0, 0, 0, 0, 0, 0] : Vector Word 11)[j] = 0 := by decide
    exact hzero j
  | _ => rfl

/-- Settles O43: every register of a launch but CAPACITY reads 0, so every offset but CAPACITY's does. -/
theorem launchHasTheResetValues : Obligations.LaunchHasTheResetValues :=
  fun c mem prog off => ⟨readOffset_of_readReg_eq_zero (readReg_launch c mem prog) off, rfl, rfl⟩

/-! ## Writing -/

theorem writeOffset_cmd (s : State) (v : Word) : writeOffset 0 v s = command v s := rfl

theorem writeOffset_offset (s : State) {r : Reg} (h : r ≠ .cmd) (v : Word) :
    writeOffset r.offset v s = .next (writeReg s r v) := by
  simp only [writeOffset, Reg.ofOffset_offset]

theorem writeOffset_of_reserved (s : State) {off : Nat} (h : Reg.ofOffset off = none) (v : Word) :
    writeOffset off v s = .next s := by
  simp only [writeOffset, h]

/-- R34: from MIX_Y on there is no read-write register. -/
theorem registerWritten_of_le (s : State) {off : Nat} (h : 0x38 ≤ off) (v : Word) : registerWritten s off v = s := by
  unfold registerWritten
  simp (disch := omega) only [if_neg]

theorem registerWritten_offset (s : State) (r : Reg) (v : Word) : registerWritten s r.offset v = writeReg s r v := by
  cases r with
  | hex j => exact registerWritten_of_le s (by simp only [Reg.offset]; omega) v
  | _ => rfl

/-- R34: at every offset a host write may name but that of CMD. -/
theorem writeOffset_eq_registerWritten (s : State) {off : Nat} (h0 : off ≠ 0) (h4 : off % 4 = 0) (v : Word) :
    writeOffset off v s = .next (registerWritten s off v) := by
  cases h : Reg.ofOffset off with
  | none =>
    have hle := le_of_ofOffset_eq_none h4 h
    rw [writeOffset_of_reserved s h, registerWritten_of_le s (by omega)]
  | some r =>
    obtain rfl := Reg.offset_of_ofOffset h
    rw [writeOffset_offset s (fun hr => h0 (congrArg Reg.offset hr)), registerWritten_offset]

/-! ## The accesses as steps -/

theorem step_of_host {s : State} {op : HostOp} {rest : List HostOp} (h : s.host = op :: rest) :
    step s = hostStep op (s.withHost rest) := by
  simp only [step, nextAccess, h]

theorem hostRegRead_of_wf (s : State) {off : Nat} (hlt : off < 256) (h4 : off % 4 = 0) :
    hostRegRead off 4 s = .next (s.reply (.reg off (readOffset s off))) := by
  simp only [hostRegRead, regAccessRefusal_eq_none.2 ⟨rfl, hlt, h4⟩]

theorem hostRegWrite_of_wf (s : State) {off : Nat} (hlt : off < 256) (h4 : off % 4 = 0) (v : Word) :
    hostRegWrite off 4 v s = writeOffset off v s := by
  simp only [hostRegWrite, regAccessRefusal_eq_none.2 ⟨rfl, hlt, h4⟩]

/-- Settles O35: the read is not refused, and at an aligned offset `readOffset` follows the register map. -/
theorem hostReadReturnsTheRegister : Obligations.HostReadReturnsTheRegister := by
  intro s off rest hhost hlt h4
  rw [step_of_host hhost, hostStep, hostRegRead_of_wf _ hlt h4, readOffset_eq_registerAt _ h4]
  rfl

/-- Settles O36: the write is not refused; at 0 it is the command, elsewhere `writeOffset` follows the register map. -/
theorem hostWriteSetsOnlyReadWriteRegisters : Obligations.HostWriteSetsOnlyReadWriteRegisters := by
  intro s off v rest hhost hlt h4
  rw [step_of_host hhost, hostStep, hostRegWrite_of_wf _ hlt h4]
  split_ifs with h0
  · rw [h0, writeOffset_cmd]; rfl
  · exact writeOffset_eq_registerWritten _ h0 h4 v

end Sys2Proof.Machine
end

section
/-! What the commands and steps leave unchanged, and that no command stops (R25 to R31, R251, R292). -/

namespace Sys2Proof.Machine

/-! ## No command stops -/

/-- R292: a command answers a next state, whatever the state before it. -/
theorem exec_eq_next (i : Instr) (s : State) : ∃ t, exec i s = .next t := by
  cases i with
  | hash =>
    by_cases h : hashOutOfRange s
    · exact ⟨_, if_pos h⟩
    · exact ⟨_, if_neg h⟩
  | _ => exact ⟨_, rfl⟩

theorem command_of_decode_ok {w : Word} {i : Instr} (h : decode w = .ok i) (s : State) : command w s = exec i s := by
  simp only [command, h]

theorem command_of_decode_error {w : Word} {e : DecodeError} (h : decode w = .error e) (s : State) :
    command w s = .next (s.withErr (decodeErrCode e)) := by
  simp only [command, h, raiseCmdError]

theorem command_eq_next (w : Word) (s : State) : ∃ t, command w s = .next t := by
  cases h : decode w with
  | ok i => exact command_of_decode_ok h s ▸ exec_eq_next i s
  | error e => exact ⟨_, command_of_decode_error h s⟩

theorem writeOffset_eq_next (off : Nat) (v : Word) (s : State) : ∃ t, writeOffset off v s = .next t := by
  unfold writeOffset
  split
  · exact command_eq_next v s
  · exact ⟨_, rfl⟩
  · exact ⟨_, rfl⟩

theorem hostRegRead_refused_iff {off width : Nat} {s : State} :
    (∃ r, hostRegRead off width s = .refused r) ↔ ¬ (width = 4 ∧ off < 256 ∧ off % 4 = 0) := by
  rw [← regAccessRefusal_eq_none]
  cases h : regAccessRefusal off width <;> simp [hostRegRead, h]

theorem hostRegWrite_refused_iff {off width : Nat} {v : Word} {s : State} :
    (∃ r, hostRegWrite off width v s = .refused r) ↔ ¬ (width = 4 ∧ off < 256 ∧ off % 4 = 0) := by
  rw [← regAccessRefusal_eq_none]
  obtain ⟨t, ht⟩ := writeOffset_eq_next off v s
  cases h : regAccessRefusal off width <;> simp [hostRegWrite, h, ht]

/-- Settles O37: what is behind the shape test, a read or a command among it, refuses nothing. -/
theorem registerAccessIsRefusedExactlyOutsideItsShape : Obligations.RegisterAccessIsRefusedExactlyOutsideItsShape := by
  intro s off width v rest
  refine ⟨fun hhost => ?_, fun hhost => ?_⟩
  · rw [step_of_host hhost]; exact hostRegRead_refused_iff
  · rw [step_of_host hhost]; exact hostRegWrite_refused_iff

/-- Settles O4: the write to CMD is not refused, and a decoded word is run. -/
theorem stepRunsTheDecodedCommand : Obligations.StepRunsTheDecodedCommand := by
  intro s w rest i hhost hdec
  rw [step_of_host hhost, hostStep, hostRegWrite_of_wf _ (by decide) (by decide), writeOffset_cmd,
    command_of_decode_ok hdec]
  rfl

/-! ## Which registers a command writes -/

/-- Settles O41: each case of what a command can do writes ERR and at most the field its family may write. -/
theorem commandsWriteOnlyTheirRegisters : Obligations.CommandsWriteOnlyTheirRegisters := by
  intro i s t h
  obtain ⟨rfl, rfl⟩ | ⟨hi, y, rfl⟩ | ⟨hi, x, rfl⟩ | ⟨rfl, rfl⟩ | ⟨rfl, -, rfl⟩ | ⟨rfl, -, x, rfl⟩ |
    ⟨rfl, w1, w2, w3, w4, rfl⟩ := exec_cases h
  · simp
  · simp [hi]
  · exact ⟨by simp, by simp, by simp, fun hn => absurd (List.mem_append_left [Instr.hash] hi) hn⟩
  · simp
  · simp
  · simp
  · simp

/-- The state with other values in the mixer registers. -/
def State.withMixer (s : State) (a b y : Word) : State := ((s.withMixA a).withMixB b).withMixY y

theorem exec_withMixer {i : Instr} (hi : i ∉ [.add32, .xor32, .mul32, .rotl32, .shr32]) (s : State) (a b y : Word) :
    ∃ t, exec i s = .next t ∧ exec i (s.withMixer a b y) = .next (t.withMixer a b y) := by
  cases i with
  | add32 | xor32 | mul32 | rotl32 | shr32 => simp at hi
  | nop | init | block | tail | final | storeh | format => exact ⟨_, rfl, rfl⟩
  | hash =>
    by_cases h : hashOutOfRange s
    · have h' : hashOutOfRange (s.withMixer a b y) := h
      exact ⟨s.withErr .range, if_pos h, if_pos h'⟩
    · have hfits : 16 + s.len.toNat ≤ s.cap := Nat.not_lt.1 h
      have hfits' : 16 + (s.withMixer a b y).len.toNat ≤ (s.withMixer a b y).cap := hfits
      exact ⟨_, exec_hash_of_fits hfits, exec_hash_of_fits hfits'⟩

/-- Settles O42: the other commands take nothing from the mixer registers and pass them through. -/
theorem onlyMixCommandsReadTheMixer : Obligations.OnlyMixCommandsReadTheMixer :=
  fun _ s a b y hi => exec_withMixer hi s a b y

/-! ## What a step keeps -/

/-- R31: only FORMAT writes HEX0 to HEX10, and it writes a hex string. -/
theorem exec_hex {i : Instr} {s t : State} (h : exec i s = .next t) :
    t.hex = s.hex ∨ ∃ w1 w2 w3 w4, t.hex = hexRegs (fmt w1 w2 w3 w4) := by
  by_cases hi : i = .format
  · subst hi
    simp only [exec, execFormat, complete_eq_next] at h
    subst h
    exact .inr ⟨_, _, _, _, rfl⟩
  · obtain ⟨-, -, hhex, -⟩ := commandsWriteOnlyTheirRegisters i s t h
    exact .inl (hhex hi)

@[simp] theorem writeReg_capacity (s : State) (r : Reg) (v : Word) : (writeReg s r v).capacity = s.capacity := by
  cases r <;> rfl

@[simp] theorem writeReg_hex (s : State) (r : Reg) (v : Word) : (writeReg s r v).hex = s.hex := by cases r <;> rfl

/-- R30, R31: no step writes CAPACITY, and only a FORMAT writes HEX0 to HEX10. -/
theorem step_capacity_hex {s t : State} (h : step s = .next t) :
    t.capacity = s.capacity ∧ (t.hex = s.hex ∨ ∃ w1 w2 w3 w4, t.hex = hexRegs (fmt w1 w2 w3 w4)) := by
  obtain ⟨-, rfl⟩ | ⟨-, i, rest, -, -, hexec⟩ | ⟨_, _, _, -, -, rfl⟩ | ⟨_, _, _, -, -, rfl⟩ | ⟨_, _, _, -, -, rfl⟩ |
    ⟨_, _, -, -, -, rfl⟩ | ⟨_, _, _, -, -, rfl⟩ | ⟨_, _, _, -, -, rfl⟩ := step_cases h
  case inr.inl =>
    obtain ⟨⟨-, -, -, -, -, hcap, -, -⟩, -⟩ := commandsWriteOnlyTheirRegisters i _ t hexec
    have hhex := exec_hex hexec
    exact ⟨hcap, hhex⟩
  all_goals simp [State.reply]

/-- Settles O39: CAPACITY reads the launch's `m`, and no step writes that. -/
theorem capacityIsConstantForALaunch : Obligations.CapacityIsConstantForALaunch := by
  intro s
  rw [readOffset_capacity_toNat]
  refine ⟨s.capacity.lo, s.capacity.hi, rfl, fun t h => ?_⟩
  obtain ⟨hcap, -⟩ := step_capacity_hex h
  rw [← BitVec.toNat_inj, readOffset_capacity_toNat, readOffset_capacity_toNat, hcap]

end Sys2Proof.Machine
end

section
/-! The hex string of FORMAT, character by character (R230 to R233), and that HEX0 to HEX10 hold nothing else but zero. -/

namespace Sys2Proof.Machine

open Sys2Proof.Claims

/-! ## The string -/

theorem nibble_toNat (w : Word) {d : Nat} (hd : d < 8) : (nibble w d).toNat = w.toNat / 16 ^ (7 - d) % 16 := by
  have hpow : (2 : Nat) ^ (28 - 4 * d) = 16 ^ (7 - d) := by
    rw [show 28 - 4 * d = 4 * (7 - d) by omega, Nat.pow_mul]
  simp [nibble, Nat.shiftRight_eq_div_pow, hpow]

/-- R230, as numbers. -/
theorem hexdigit_toNat (n : BitVec 4) :
    (hexdigit n).toNat = if n.toNat ≤ 9 then 0x30 + n.toNat else 0x61 + (n.toNat - 10) := by
  revert n; decide

@[simp] theorem length_laneText (w : Word) : (laneText w).length = 10 := by simp [laneText]

theorem getD_laneText (w : Word) {d : Nat} (hd : d < 8) : (laneText w).getD (d + 2) 0 = hexdigit (nibble w d) := by
  simp [laneText, hd]

/-- R231: character `o` of a word's ten, in the terms of `hexChar`. -/
theorem getD_laneText_toNat (w : Nat → Word) (q : Nat) {o : Nat} (ho : o < 10) :
    ((laneText (w q)).getD o 0).toNat = hexChar w (11 * q + o) := by
  have hmod : (11 * q + o) % 11 = o := by omega
  have hdiv : (11 * q + o) / 11 = q := by omega
  have hne : 11 * q + o ≠ 43 := by omega
  unfold hexChar
  rw [hmod, hdiv, if_neg hne]
  match o, ho with
  | 0, _ => rfl
  | 1, _ => rfl
  | d + 2, hd =>
    rw [getD_laneText _ (by omega), hexdigit_toNat, nibble_toNat _ (by omega)]
    simp only [show 9 - (d + 2) = 7 - d by omega]
    simp (disch := omega) only [if_neg]

/-- R231: a word of the string and the comma behind it. -/
theorem getD_laneText_comma_toNat (w : Nat → Word) {q o : Nat} (hq : q < 3) (ho : o < 11) (rest : List Byte) :
    ((laneText (w q) ++ 0x2C :: rest).getD o 0).toNat = hexChar w (11 * q + o) := by
  rcases Nat.lt_succ_iff_lt_or_eq.1 ho with ho | rfl
  · rw [List.getD_append _ _ _ _ (by simpa using ho), getD_laneText_toNat w q ho]
  · have hmod : (11 * q + 10) % 11 = 10 := by omega
    have hne : 11 * q + 10 ≠ 43 := by omega
    rw [List.getD_append_right _ _ _ _ (by simp)]
    simp [hexChar, hmod, hne]

/-- Behind a word and its comma the string goes on. -/
theorem getD_laneText_comma_add (w : Word) (rest : List Byte) (c : Nat) :
    (laneText w ++ 0x2C :: rest).getD (11 + c) 0 = rest.getD c 0 := by
  rw [List.getD_append_right _ _ _ _ (by rw [length_laneText]; omega), length_laneText, show 11 + c - 10 = c + 1 by omega,
    List.getD_cons_succ]

/-- R231, R233: the string in the terms of `hexChar`; behind its 43 characters `getD` gives the 0x00 of byte 43. -/
theorem getD_fmt_toNat (w : Nat → Word) {c : Nat} (hc : c < 44) :
    ((fmt (w 0) (w 1) (w 2) (w 3)).getD c 0).toNat = hexChar w c := by
  unfold fmt
  by_cases h0 : c < 11
  · rw [getD_laneText_comma_toNat w (by decide) h0, Nat.mul_zero, Nat.zero_add]
  obtain ⟨c, rfl⟩ := Nat.exists_eq_add_of_le (Nat.not_lt.1 h0)
  rw [getD_laneText_comma_add]
  by_cases h1 : c < 11
  · exact getD_laneText_comma_toNat w (by decide) h1 _
  obtain ⟨c, rfl⟩ := Nat.exists_eq_add_of_le (Nat.not_lt.1 h1)
  rw [getD_laneText_comma_add, ← Nat.add_assoc]
  by_cases h2 : c < 11
  · exact getD_laneText_comma_toNat w (by decide) h2 _
  obtain ⟨c, rfl⟩ := Nat.exists_eq_add_of_le (Nat.not_lt.1 h2)
  rw [getD_laneText_comma_add, ← Nat.add_assoc]
  by_cases h3 : c < 10
  · exact getD_laneText_toNat w 3 h3
  · obtain rfl : c = 10 := by omega
    rfl

/-! ## The registers -/

theorem toNat_append_byte {n : Nat} (x : BitVec n) (b : Byte) : (x ++ b).toNat = 256 * x.toNat + b.toNat := by
  rw [BitVec.toNat_append, ← Nat.shiftLeft_add_eq_or_of_lt b.isLt, Nat.shiftLeft_eq, Nat.mul_comm]

/-- R52: the little-endian word as a number. -/
theorem ofBytes_toNat (b0 b1 b2 b3 : Byte) : (ofBytes b0 b1 b2 b3).toNat =
    b0.toNat + 256 * b1.toNat + 65536 * b2.toNat + 16777216 * b3.toNat := by
  unfold ofBytes
  simp only [toNat_append_byte]
  omega

theorem byteNat_hexReg (str : List Byte) (j : Nat) {b : Nat} (hb : b < 4) :
    byteNat (hexReg str j) b = (str.getD (4 * j + b) 0).toNat := by
  have hlt : ∀ i, (str.getD i 0).toNat < 256 := fun i => BitVec.isLt _
  have h0 := hlt (4 * j)
  have h1 := hlt (4 * j + 1)
  have h2 := hlt (4 * j + 2)
  have h3 := hlt (4 * j + 3)
  rw [byteNat, hexReg, ofBytes_toNat]
  interval_cases b
  · simp only [Nat.pow_zero, Nat.div_one, Nat.add_zero]
    omega
  all_goals omega

theorem getD_hexRegs (str : List Byte) {j : Nat} (hj : j < 11) : (hexRegs str).toList.getD j 0 = hexReg str j := by
  interval_cases j <;> rfl

/-- R233: byte `c` of the registers FORMAT leaves is character `c` of the string. -/
theorem byteNat_hexRegs_fmt (w : Nat → Word) {c : Nat} (hc : c < 44) :
    byteNat ((hexRegs (fmt (w 0) (w 1) (w 2) (w 3))).toList.getD (c / 4) 0) (c % 4) = hexChar w c := by
  rw [getD_hexRegs _ (by omega), byteNat_hexReg _ _ (by omega), Nat.div_add_mod, getD_fmt_toNat w hc]

/-- Settles O47: a step keeps the HEX registers or is a FORMAT, and that leaves a whole string. -/
theorem hexRegistersHoldZeroOrText : Obligations.HexRegistersHoldZeroOrText := by
  refine ⟨.inl rfl, fun s t hs h => ?_⟩
  obtain ⟨-, hkeep | ⟨w1, w2, w3, w4, htext⟩⟩ := step_capacity_hex h
  · unfold HexZeroOrText
    rwa [hkeep]
  · refine .inr ⟨fun j => [w1, w2, w3, w4].getD j 0, fun c hc => ?_⟩
    rw [htext]
    exact byteNat_hexRegs_fmt (fun j => [w1, w2, w3, w4].getD j 0) hc

end Sys2Proof.Machine
end

section
/-! Accesses to the buffer memory: the core's words (R52, R53) and the host's runs of bytes (R50, R58, R60). -/

namespace Sys2Proof.Machine

/-! ## Words -/

/-- Settles O30: the read is `ofBytes` of its four bytes, and the write is given byte by byte by the read after write of bytes. -/
theorem wordAccessIsLittleEndian : Obligations.WordAccessIsLittleEndian := fun m a v =>
  ⟨ofBytes_toNat .., fun _ hj => readByte_writeWord_toNat m a v hj, fun _ hb => readByte_writeWord_of_outside hb,
    readWord_writeWord m a v⟩

/-! ## Runs of bytes -/

theorem readByte_writeBytes_of_outside {m : Memory} {a b : Nat} {bs : List Byte} (h : b < a ∨ a + bs.length ≤ b) :
    readByte (writeBytes m a bs) b = readByte m b := by
  rw [readByte_writeBytes, if_neg (by omega)]

/-- R60: a run of bytes is read back as it was written. -/
theorem readBytes_writeBytes (m : Memory) (a : Nat) (bs : List Byte) :
    readBytes (writeBytes m a bs) a bs.length = bs := by
  apply List.ext_getElem
  · simp
  · intro j _ hj
    simp [readBytes, readByte_writeBytes, hj]

/-! ## The host's accesses -/

theorem bufferAccessWf_iff {cap a n : Nat} : bufferAccessWf cap a n = true ↔ n = 0 ∨ a + n ≤ cap := by
  simp [bufferAccessWf]

theorem step_memWrite {s : State} {a : Nat} {bs : List Byte} {rest : List HostOp}
    (hhost : s.host = .memWrite a bs :: rest) (hwf : bufferAccessWf s.cap a bs.length = true) :
    step s = .next ((s.withHost rest).withMem (writeBytes s.mem a bs)) := by
  rw [step_of_host hhost]
  exact if_pos hwf

theorem step_memRead {s : State} {a n : Nat} {rest : List HostOp}
    (hhost : s.host = .memRead a n :: rest) (hwf : bufferAccessWf s.cap a n = true) :
    step s = .next ((s.withHost rest).reply (.bytes a (readBytes s.mem a n))) := by
  rw [step_of_host hhost]
  exact if_pos hwf

/-- Settles O33: both accesses are inside the buffer, and the read gives what the write left. -/
theorem hostReadsBackWhatItWrote : Obligations.HostReadsBackWhatItWrote := by
  intro s a bs rest hhost hin
  have hwf : bufferAccessWf s.cap a bs.length = true := bufferAccessWf_iff.2 (.inr hin)
  refine ⟨_, _, step_memWrite hhost hwf, step_memRead rfl hwf, ?_, fun b hb => readByte_writeBytes_of_outside hb, rfl⟩
  rw [State.withMem_mem, readBytes_writeBytes]
  rfl

/-- Settles O34: a run of at least one byte that ends behind CAP is not well formed. -/
theorem hostAccessBeyondTheBufferFaults : Obligations.HostAccessBeyondTheBufferFaults := by
  intro s a n bs rest
  have hbad : ∀ k, k ≠ 0 → s.cap < a + k → ¬ bufferAccessWf s.cap a k = true := fun k hk hlt hwf =>
    (bufferAccessWf_iff.1 hwf).elim hk (by omega)
  refine ⟨fun hhost hne hlt => ?_, fun hhost hne hlt => ?_⟩
  · rw [step_of_host hhost]
    exact if_neg (hbad _ (mt List.length_eq_zero_iff.1 hne) hlt)
  · rw [step_of_host hhost]
    exact if_neg (hbad _ hne hlt)

end Sys2Proof.Machine
end

section
/-! The invariant of a step: what commands and steps can leave in the buffer memory (R50, R55), and byte 43 of the hex string (R31). -/

namespace Sys2Proof.Machine

/-! ## What can become of the memory -/

/-- R55: a command leaves the memory as it is, or is HASH or STOREH and writes the header. -/
theorem exec_mem {i : Instr} {s t : State} (h : exec i s = .next t) :
    t.mem = s.mem ∨ (i = .hash ∨ i = .storeh) ∧ ∃ x, t.mem = storeHeader s.mem x := by
  obtain ⟨-, rfl⟩ | ⟨-, _, rfl⟩ | ⟨-, _, rfl⟩ | ⟨hi, rfl⟩ | ⟨-, -, rfl⟩ | ⟨hi, -, _, rfl⟩ |
    ⟨-, _, _, _, _, rfl⟩ := exec_cases h
  · exact .inl rfl
  · exact .inl rfl
  · exact .inl rfl
  · exact .inr ⟨.inr hi, _, rfl⟩
  · exact .inl rfl
  · exact .inr ⟨.inl hi, _, rfl⟩
  · exact .inl rfl

@[simp] theorem writeReg_mem (s : State) (r : Reg) (v : Word) : (writeReg s r v).mem = s.mem := by cases r <;> rfl

/-- R55, R58: a step leaves the memory as it is, writes the header, or writes the bytes of a host access inside the buffer. -/
theorem step_mem {s t : State} (h : step s = .next t) :
    t.mem = s.mem ∨ (∃ x, t.mem = storeHeader s.mem x) ∨
      ∃ a bs, bufferAccessWf s.cap a bs.length = true ∧ t.mem = writeBytes s.mem a bs := by
  obtain ⟨-, rfl⟩ | ⟨-, _, _, -, -, hexec⟩ | ⟨_, _, _, -, -, rfl⟩ | ⟨_, _, _, -, -, rfl⟩ | ⟨_, _, _, -, -, rfl⟩ |
    ⟨_, _, -, -, -, rfl⟩ | ⟨a, bs, _, -, hwf, rfl⟩ | ⟨_, _, _, -, -, rfl⟩ := step_cases h
  · exact .inl rfl
  · obtain hkeep | ⟨-, x, hheader⟩ := exec_mem hexec
    · exact .inl hkeep
    · exact .inr (.inl ⟨x, hheader⟩)
  · exact .inl rfl
  · exact .inl (writeReg_mem ..)
  · exact .inl rfl
  · exact .inl rfl
  · exact .inr (.inr ⟨a, bs, hwf, rfl⟩)
  · exact .inl rfl

/-! ## The invariant -/

/-- R50: the header and every well-formed host access lie inside the buffer, so a step lists no address at or above CAP. -/
theorem step_fits {s t : State} (hs : Memory.Fits s.cap s.mem) (h : step s = .next t) : Memory.Fits s.cap t.mem := by
  obtain hkeep | ⟨x, hheader⟩ | ⟨a, bs, hwf, hwrite⟩ := step_mem h
  · rwa [hkeep]
  · rw [hheader]
    exact storeHeader_fits hs (Nat.le_trans (by decide) s.cap_ge)
  · rw [hwrite]
    obtain hempty | hin := bufferAccessWf_iff.1 hwf
    · rwa [List.length_eq_zero_iff.1 hempty]
    · exact writeBytes_fits hs hin

/-- R31, R233: FORMAT leaves byte 43, the one behind the string's end, 0x00. -/
theorem byteOf_hexRegs_fmt (w1 w2 w3 w4 : Word) : byteOf (hexRegs (fmt w1 w2 w3 w4))[10] 3 = 0 := by
  apply BitVec.eq_of_toNat_eq
  rw [byteOf_toNat]
  have hchar := byteNat_hexRegs_fmt (fun j => [w1, w2, w3, w4].getD j 0) (c := 43) (by decide)
  rwa [getD_hexRegs _ (by decide)] at hchar

/-- Settles O46: CAPACITY stays, the memory stays inside the buffer, and HEX10 is kept or comes from FORMAT. -/
theorem stepKeepsTheInvariant : Obligations.StepKeepsTheInvariant := by
  intro s t ⟨hwf, hbound, hbyte⟩ h
  obtain ⟨hcapacity, hhex⟩ := step_capacity_hex h
  have hcap : t.cap = s.cap := by rw [State.cap, hcapacity, State.cap]
  obtain ⟨hwf', hbound'⟩ := step_fits ⟨hwf, hbound⟩ h
  refine ⟨hwf', hcap ▸ hbound', ?_⟩
  obtain hkeep | ⟨w1, w2, w3, w4, htext⟩ := hhex
  · rwa [hkeep]
  · rw [htext]
    exact byteOf_hexRegs_fmt w1 w2 w3 w4

end Sys2Proof.Machine
end

section
/-! Which bytes of the buffer memory a command writes (R55) and reads (R56). -/

namespace Sys2Proof.Machine

/-- Settles O31: a command that changes the memory writes the header, and only HASH and STOREH do. -/
theorem commandsWriteOnlyTheHeader : Obligations.CommandsWriteOnlyTheHeader := by
  intro i s t h
  obtain hkeep | ⟨hi, x, hheader⟩ := exec_mem h
  · exact ⟨fun a _ => by rw [hkeep], fun _ _ => hkeep⟩
  · refine ⟨fun a ha => ?_, fun hhash hstoreh => (hi.elim hhash hstoreh).elim⟩
    rw [hheader, readByte_storeHeader_of_outside ha]

/-! ## What HASH reads -/

theorem readKWords_congr {m m' : Memory} {a : Nat} (h : ∀ j < 16, readByte m (a + j) = readByte m' (a + j)) :
    readKWords m a = readKWords m' a := by
  have hword : ∀ o ≤ 12, readWord m (a + o) = readWord m' (a + o) := fun o ho =>
    readWord_congr fun j hj => by rw [Nat.add_assoc]; exact h (o + j) (by omega)
  have h0 : readWord m a = readWord m' a := hword 0 (by decide)
  simp only [readKWords, h0, hword 4 (by decide), hword 8 (by decide), hword 12 (by decide)]

theorem hashBlocks_congr {m m' : Memory} (h : Lanes) {n : Nat}
    (hmem : ∀ a, payloadStart ≤ a → a < payloadStart + 16 * n → readByte m a = readByte m' a) :
    hashBlocks m h n = hashBlocks m' h n := by
  induction n with
  | zero => rfl
  | succ n ih =>
    have hwords : blockWords m n = blockWords m' n :=
      readKWords_congr fun j hj => hmem _ (by omega) (by omega)
    rw [hashBlocks, hashBlocks, hwords, ih fun a hlo hhi => hmem a hlo (by omega)]

/-- R205: the tail words are read up to the 4-byte boundary behind the tail. -/
theorem tailWords_congr {m m' : Memory} {tb t : Nat}
    (hmem : ∀ i < 4 * ((t + 3) / 4), readByte m (tb + i) = readByte m' (tb + i)) :
    tailWords m tb t = tailWords m' tb t := by
  have hword : ∀ q, (if 4 * q < t then readWord m (tb + 4 * q) else 0) =
      if 4 * q < t then readWord m' (tb + 4 * q) else 0 := by
    intro q
    split_ifs with hq
    · exact readWord_congr fun j hj => by rw [Nat.add_assoc]; exact hmem _ (by omega)
    · rfl
  rw [tailWords_eq, tailWords_eq]
  exact congr (congr (congr (congrArg KWords.mk (hword 0)) (hword 1)) (hword 2)) (hword 3)

/-- R203, R205: HASH reads the payload and its padding up to the next 4-byte boundary, and no other byte. -/
theorem hashLanes_congr {m m' : Memory} (len seed : Word)
    (hmem : ∀ a, payloadStart ≤ a → a < payloadStart + 4 * ((len.toNat + 3) / 4) → readByte m a = readByte m' a) :
    hashLanes m len seed = hashLanes m' len seed := by
  have hblocks : hashBlocks m (seedLanes seed) (len.toNat / 16) = hashBlocks m' (seedLanes seed) (len.toNat / 16) :=
    hashBlocks_congr _ fun a hlo hhi => hmem a hlo (by omega)
  have htail : tailWords m (payloadStart + 16 * (len.toNat / 16)) (len.toNat % 16) =
      tailWords m' (payloadStart + 16 * (len.toNat / 16)) (len.toNat % 16) :=
    tailWords_congr fun i hi => hmem _ (by omega) (by omega)
  simp only [hashLanes, hblocks, htail]

/-! ## No command looks at a byte from CAP on -/

/-- R30: CAP is a power of 2 from 4096 on, so a whole number of words. -/
theorem State.four_dvd_cap (s : State) : 4 ∣ s.cap :=
  (pow_dvd_pow 2 (Nat.le_trans (by decide : 2 ≤ 12) s.capacity.lo) : 2 ^ 2 ∣ 2 ^ s.capacity.m)

theorem State.withMem_withErr (s : State) (m : Memory) (e : ErrCode) :
    (s.withMem m).withErr e = (s.withErr e).withMem m := rfl

theorem State.withMem_withH (s : State) (m : Memory) (x : Lanes) :
    (s.withMem m).withH x = (s.withH x).withMem m := rfl

theorem State.withMem_withMem (s : State) (m m' : Memory) : (s.withMem m).withMem m' = s.withMem m' := rfl

/-- R56: over a memory with the same bytes below CAP, a command does the same to the registers, and keeps the memory or writes the same header. -/
theorem exec_withMem {s : State} {m : Memory} (hmem : ∀ a < s.cap, readByte s.mem a = readByte m a) (i : Instr) :
    ∃ t, exec i s = .next t ∧
      (t.mem = s.mem ∧ exec i (s.withMem m) = .next (t.withMem m) ∨
        ∃ x, t.mem = storeHeader s.mem x ∧ exec i (s.withMem m) = .next (t.withMem (storeHeader m x))) := by
  have hcap := s.cap_ge
  cases i with
  | nop | add32 | xor32 | mul32 | rotl32 | shr32 | init | block | tail | final =>
    exact ⟨_, rfl, .inl ⟨rfl, rfl⟩⟩
  | storeh => exact ⟨_, rfl, .inr ⟨s.h, rfl, rfl⟩⟩
  | hash =>
    by_cases hr : hashOutOfRange s
    · have hr' : hashOutOfRange (s.withMem m) := hr
      exact ⟨s.withErr .range, if_pos hr, .inl ⟨rfl, if_pos hr'⟩⟩
    · have hfits : 16 + s.len.toNat ≤ s.cap := Nat.not_lt.1 hr
      have hfits' : 16 + (s.withMem m).len.toNat ≤ (s.withMem m).cap := hfits
      have hlanes : hashLanes s.mem s.len s.seed = hashLanes m s.len s.seed := by
        have hdvd := s.four_dvd_cap
        exact hashLanes_congr _ _ fun a _ ha => hmem a (by unfold payloadStart at ha; omega)
      refine ⟨_, exec_hash_of_fits hfits, .inr ⟨_, State.withMem_mem .., ?_⟩⟩
      rw [exec_hash_of_fits hfits', State.withMem_withErr, State.withMem_withH, State.withMem_withMem,
        State.withMem_withMem, State.withMem_mem, State.withMem_len, State.withMem_seed, hlanes]
  | format =>
    have hword : ∀ a ≤ 12, readWord s.mem a = readWord m a := fun a ha =>
      readWord_congr fun j hj => hmem _ (by omega)
    refine ⟨_, rfl, .inl ⟨rfl, ?_⟩⟩
    simp only [exec, execFormat, complete, State.withMem_mem, ← hword 0 (by decide), ← hword 4 (by decide),
      ← hword 8 (by decide), ← hword 12 (by decide)]
    rfl

theorem readByte_storeHeader_congr {m m' : Memory} (x : Lanes) {a : Nat} (h : readByte m a = readByte m' a) :
    readByte (storeHeader m x) a = readByte (storeHeader m' x) a := by
  by_cases ha : a < 16
  · apply BitVec.eq_of_toNat_eq
    rw [readByte_storeHeader _ _ ha, readByte_storeHeader _ _ ha]
  · rw [readByte_storeHeader_of_outside (Nat.not_lt.1 ha), readByte_storeHeader_of_outside (Nat.not_lt.1 ha), h]

/-- Settles O32: a command keeps either memory or writes the same header into both, and the header lies below CAP. -/
theorem commandsStayInsideTheBuffer : Obligations.CommandsStayInsideTheBuffer := by
  intro i s m hmem
  obtain ⟨t, ht, ⟨hkeep, hu⟩ | ⟨x, hheader, hu⟩⟩ := exec_withMem hmem i
  · refine ⟨t, _, ht, hu, rfl, fun a ha => ?_, fun a _ => ⟨by rw [hkeep], rfl⟩⟩
    rw [hkeep]
    exact hmem a ha
  · refine ⟨t, _, ht, hu, rfl, fun a ha => ?_, fun a ha => ?_⟩
    · rw [hheader]
      exact readByte_storeHeader_congr x (hmem a ha)
    · have hbehind : 16 ≤ a := Nat.le_trans (Nat.le_trans (by decide) s.cap_ge) ha
      rw [hheader]
      exact ⟨readByte_storeHeader_of_outside hbehind, readByte_storeHeader_of_outside hbehind⟩

end Sys2Proof.Machine
end

section
/-! The decoder and the encoder: the fields of a word as numbers, what each table of R81 to R83 gives, and that they agree (R80 to R87). -/

namespace Sys2Proof

open Sys2Proof.Claims

/-! ## The fields of a word (R80) -/

theorem opcField_toNat (w : Word) : (opcField w).toNat = w.toNat % 256 := by simp [opcField]

theorem fnField_toNat (w : Word) : (fnField w).toNat = w.toNat / 256 % 8 := by
  simp [fnField, Nat.shiftRight_eq_div_pow]

theorem rsvField_toNat (w : Word) : (rsvField w).toNat = w.toNat / 2048 := by
  have hw : w.toNat < 2 ^ 32 := w.isLt
  simp only [rsvField, BitVec.extractLsb'_toNat, Nat.shiftRight_eq_div_pow]
  omega

/-- The fields make up the word. -/
theorem rsvField_append_fnField_append_opcField (w : Word) : rsvField w ++ fnField w ++ opcField w = w := by
  have hhigh : rsvField w ++ fnField w = w.extractLsb' 8 24 := BitVec.extractLsb'_append_extractLsb'_eq_extractLsb' rfl
  calc
    rsvField w ++ fnField w ++ opcField w = w.extractLsb' 8 24 ++ w.extractLsb' 0 8 := by rw [hhigh, opcField]
    _ = w.extractLsb' 0 32 := BitVec.extractLsb'_append_extractLsb'_eq_extractLsb' rfl
    _ = w := BitVec.extractLsb'_eq_self

/-! ## The opcode map (R81) -/

theorem Opcode.ofCode_eq_some {c : BitVec 8} {o : Opcode} : Opcode.ofCode c = some o ↔ o.code = c := by
  constructor
  · intro h
    simpa using List.find?_some h
  · rintro rfl
    cases o <;> rfl

theorem legalOpcodes_eq_map : legalOpcodes = Opcode.all.map (·.code.toNat) := rfl

theorem Opcode.ofCode_eq_none {c : BitVec 8} : Opcode.ofCode c = none ↔ c.toNat ∉ legalOpcodes := by
  simp [Opcode.ofCode, legalOpcodes_eq_map, BitVec.toNat_inj]

/-! ## The function of an opcode (R82, R85) -/

theorem withZeroFunction_eq_some {i j : Instr} {fn : BitVec 3} : withZeroFunction i fn = some j ↔ i = j ∧ fn = 0 := by
  simp [withZeroFunction, and_comm]

theorem withZeroFunction_eq_none {i : Instr} {fn : BitVec 3} : withZeroFunction i fn = none ↔ fn.toNat ≠ 0 := by
  simp [withZeroFunction, ← BitVec.toNat_inj]

theorem of_mixFunction_eq_some : ∀ (fn : BitVec 3), ∀ i ∈ mixFunction fn, i.opcode = .mix ∧ i.fn = fn := by decide

theorem mixFunction_eq_none :
    ∀ fn : BitVec 3, mixFunction fn = none ↔ fn.toNat = 5 ∨ fn.toNat = 6 ∨ fn.toNat = 7 := by decide

/-- R81, R82: opcode and function select the command that has them. -/
theorem Opcode.select_eq_some {o : Opcode} {fn : BitVec 3} {i : Instr} :
    o.select fn = some i ↔ i.opcode = o ∧ i.fn = fn := by
  constructor
  · intro h
    cases o with
    | mix => exact of_mixFunction_eq_some fn i h
    | _ =>
      obtain ⟨rfl, rfl⟩ := withZeroFunction_eq_some.1 h
      exact ⟨rfl, rfl⟩
  · rintro ⟨rfl, rfl⟩
    cases i <;> rfl

/-- R85: FN 5 to 7 are reserved under MIX, every FN but 0 elsewhere. -/
theorem Opcode.select_eq_none {o : Opcode} {fn : BitVec 3} :
    o.select fn = none ↔
      o.code.toNat = 0x01 ∧ (fn.toNat = 5 ∨ fn.toNat = 6 ∨ fn.toNat = 7) ∨ o.code.toNat ≠ 0x01 ∧ fn.toNat ≠ 0 := by
  cases o with
  | mix => simp [Opcode.select, Opcode.code, mixFunction_eq_none]
  | _ => simp [Opcode.select, Opcode.code, withZeroFunction_eq_none]

/-! ## The decoder: one equation per check (R85, R253) -/

theorem decode_of_ofCode_eq_none {w : Word} (h : Opcode.ofCode (opcField w) = none) :
    decode w = .error .illegalOpcode := by
  simp only [decode, h]

theorem decode_of_rsvField_ne_zero {w : Word} {o : Opcode} (h : Opcode.ofCode (opcField w) = some o)
    (hr : rsvField w ≠ 0) : decode w = .error .reservedBits := by
  simp only [decode, h, if_pos hr]

theorem decode_of_select_eq_none {w : Word} {o : Opcode} (h : Opcode.ofCode (opcField w) = some o)
    (hr : rsvField w = 0) (hs : o.select (fnField w) = none) : decode w = .error .reservedFunction := by
  simp only [decode, h, if_neg (not_not.2 hr), hs]

theorem decode_of_select_eq_some {w : Word} {o : Opcode} {i : Instr} (h : Opcode.ofCode (opcField w) = some o)
    (hr : rsvField w = 0) (hs : o.select (fnField w) = some i) : decode w = .ok i := by
  simp only [decode, h, if_neg (not_not.2 hr), hs]

/-- A word that passes every check has the fields of its command. -/
theorem fields_of_decode_eq_ok {w : Word} {i : Instr} (hdec : decode w = .ok i) :
    rsvField w = 0 ∧ fnField w = i.fn ∧ opcField w = i.opcode.code := by
  cases h : Opcode.ofCode (opcField w) with
  | none => simp [decode_of_ofCode_eq_none h] at hdec
  | some o =>
    by_cases hr : rsvField w = 0
    · cases hs : o.select (fnField w) with
      | none => simp [decode_of_select_eq_none h hr hs] at hdec
      | some j =>
        obtain rfl : j = i := by simpa [decode_of_select_eq_some h hr hs] using hdec
        obtain ⟨rfl, hfn⟩ := Opcode.select_eq_some.1 hs
        exact ⟨hr, hfn.symm, (Opcode.ofCode_eq_some.1 h).symm⟩
    · simp [decode_of_rsvField_ne_zero h hr] at hdec

/-! ## The encoder and the table (R80, R83) -/

theorem decode_encode (i : Instr) : decode (encode i) = .ok i := by cases i <;> rfl

/-- No other word is decoded as `i`: its fields are the parts `encode` puts together. -/
theorem decode_eq_ok_iff_eq_encode {w : Word} {i : Instr} : decode w = .ok i ↔ w = encode i := by
  constructor
  · intro h
    obtain ⟨hrsv, hfn, hopc⟩ := fields_of_decode_eq_ok h
    rw [encode, ← hrsv, ← hfn, ← hopc, rsvField_append_fnField_append_opcField]
  · rintro rfl
    exact decode_encode i

theorem eq_encode_of_mem_commandWords : ∀ r ∈ commandWords, r.1 = encode r.2 := by decide

theorem encode_mem_commandWords (i : Instr) : (encode i, i) ∈ commandWords := by cases i <;> decide

theorem mem_commandWords {w : Word} {i : Instr} : (w, i) ∈ commandWords ↔ w = encode i :=
  ⟨eq_encode_of_mem_commandWords _, fun h => h ▸ encode_mem_commandWords i⟩

/-- Settles O1: the fields of a decoded word put together are the encoding of the command, and the rows of the table are the thirteen encodings. -/
theorem decodeAcceptsExactlyTheCommandWords : Obligations.DecodeAcceptsExactlyTheCommandWords :=
  fun _ _ => ⟨decode_eq_ok_iff_eq_encode, mem_commandWords.symm⟩

/-- Settles O3: the seven commands' words are their encodings; the three refused words fail one check each. -/
theorem sampleCommandWordsDecode : Obligations.SampleCommandWordsDecode :=
  ⟨decode_encode .rotl32, decode_encode .block, decode_encode .tail, decode_encode .final, decode_encode .storeh,
    decode_encode .hash, decode_encode .format, rfl, rfl, rfl⟩

end Sys2Proof
end

section
/-! A write of any word to CMD (R85, R86), and the host statements that write one (R88). -/

namespace Sys2Proof.Machine

open Sys2Proof.Claims

/-! ## What a word does -/

theorem mem_selected (i : Instr) : (i.opcode.code.toNat, i.fn.toNat, i) ∈ selected := by cases i <;> decide

/-- R250: a command that is no HASH out of range ends with ERR = OK. -/
theorem exec_err_ok {i : Instr} {s : State} (h : ¬ (i = .hash ∧ hashOutOfRange s)) :
    ∃ t, exec i s = .next t ∧ t.err = .ok := by
  obtain ⟨t, ht⟩ := exec_eq_next i s
  refine ⟨t, ht, ?_⟩
  obtain ⟨-, rfl⟩ | ⟨-, y, rfl⟩ | ⟨-, x, rfl⟩ | ⟨-, rfl⟩ | ⟨hi, hr, -⟩ | ⟨-, -, x, rfl⟩ |
    ⟨-, w1, w2, w3, w4, rfl⟩ := exec_cases ht
  case inr.inr.inr.inr.inl => exact absurd ⟨hi, hr⟩ h
  all_goals rfl

/-- Settles O2: by the checks of the decoder in their order; a word that passes them has the fields of its command. -/
theorem commandWordIsDecodedInOrder : Obligations.CommandWordIsDecodedInOrder := by
  intro w s
  simp only [← opcField_toNat, ← fnField_toNat, ← rsvField_toNat]
  cases ho : Opcode.ofCode (opcField w) with
  | none =>
    rw [if_pos (Opcode.ofCode_eq_none.1 ho)]
    exact command_of_decode_error (decode_of_ofCode_eq_none ho) s
  | some o =>
    have hlegal : ¬ (opcField w).toNat ∉ legalOpcodes := by simp [← Opcode.ofCode_eq_none, ho]
    rw [if_neg hlegal]
    by_cases hr : rsvField w = 0
    · have hrsv : ¬ (rsvField w).toNat ≠ 0 := by simp [hr]
      rw [if_neg hrsv, ← Opcode.ofCode_eq_some.1 ho]
      cases hs : o.select (fnField w) with
      | none =>
        have herr := command_of_decode_error (decode_of_select_eq_none ho hr hs) s
        obtain hmix | hother := Opcode.select_eq_none.1 hs
        · rw [if_pos hmix]
          exact herr
        · rw [if_neg fun h => hother.1 h.1, if_pos hother]
          exact herr
      | some i =>
        have hsome : o.select (fnField w) ≠ none := by simp [hs]
        obtain ⟨hmix, hother⟩ := not_or.1 (mt Opcode.select_eq_none.2 hsome)
        rw [if_neg hmix, if_neg hother]
        obtain ⟨rfl, hfn⟩ := Opcode.select_eq_some.1 hs
        refine ⟨i, hfn ▸ mem_selected i, command_of_decode_ok (decode_of_select_eq_some ho hr hs) s, ?_⟩
        exact or_iff_not_imp_left.2 exec_err_ok
    · have hrsv : (rsvField w).toNat ≠ 0 := fun h => hr (BitVec.eq_of_toNat_eq h)
      rw [if_pos hrsv]
      exact command_of_decode_error (decode_of_rsvField_ne_zero ho hr) s

theorem step_of_command_write {s : State} {w : Word} {rest : List HostOp} (h : s.host = .regWrite 0 4 w :: rest) :
    step s = command w (s.withHost rest) := by
  rw [step_of_host h, hostStep, hostRegWrite_of_wf _ (by decide) (by decide), writeOffset_cmd]

/-- Settles O5: the write to CMD is not refused, and each failed check has its code. -/
theorem stepReportsARejectedWord : Obligations.StepReportsARejectedWord := by
  intro s w rest e hhost hdec
  rw [step_of_command_write hhost, command_of_decode_error hdec]
  cases e <;> rfl

/-! ## Host statements -/

theorem expand_cmd_of_mem {w : Word} {i : Instr} (h : (w, i) ∈ commandWords) :
    Stmt.expand (.cmd i) = [.regWrite 0 4 w] := by
  rw [mem_commandWords.1 h]
  rfl

/-- Settles O48: a mnemonic writes its row of the table; the other statements expand as they are defined. -/
theorem hostStatementsExpandAsListed : Obligations.HostStatementsExpandAsListed :=
  ⟨fun _ _ => rfl, fun _ => rfl, fun _ _ => rfl, fun _ _ => expand_cmd_of_mem, fun _ => rfl, fun _ _ _ => rfl,
    fun _ _ _ _ => rfl, fun _ _ _ _ => rfl, rfl⟩

end Sys2Proof.Machine
end

section
/-! The mixer (R110 to R120): its five primitives as numbers or bit by bit, and the five MIX commands that leave them in MIX_Y. -/

namespace Sys2Proof.Machine

/-! ## The primitives -/

theorem add32_toNat (a b : Word) : (add32 a b).toNat = (a.toNat + b.toNat) % 2 ^ 32 := BitVec.toNat_add a b

theorem getLsbD_xor32 (a b : Word) (i : Nat) : (xor32 a b).getLsbD i = (a.getLsbD i ^^ b.getLsbD i) := BitVec.getLsbD_xor

theorem mul32_toNat (a b : Word) : (mul32 a b).toNat = a.toNat * b.toNat % 2 ^ 32 := BitVec.toNat_mul a b

theorem shr32_toNat (x : Word) (r : BitVec 5) : (shr32 x r).toNat = x.toNat / 2 ^ r.toNat :=
  (BitVec.toNat_ushiftRight x r.toNat).trans (Nat.shiftRight_eq_div_pow _ _)

/-- R114: the bits below `r` come from the top of `x`, the others from `r` places below. -/
theorem getLsbD_rotl32 (x : Word) (r : BitVec 5) {i : Nat} (hi : i < 32) :
    (rotl32 x r).getLsbD i = x.getLsbD ((i + 32 - r.toNat) % 32) := by
  have hr : r.toNat < 32 := r.isLt
  rw [rotl32, BitVec.getLsbD_rotateLeft_of_le hr]
  by_cases hir : i < r.toNat
  · rw [show (i + 32 - r.toNat) % 32 = 32 - r.toNat + i by omega]
    simp [hir]
  · rw [show (i + 32 - r.toNat) % 32 = i - r.toNat by omega]
    simp [hir, hi]

/-- R114: the part shifted up is a multiple of `2^r` and the part shifted down is below `2^r`, so the bits do not meet and their union is the sum. -/
theorem rotl32_toNat (x : Word) (r : BitVec 5) :
    (rotl32 x r).toNat = x.toNat * 2 ^ r.toNat % 2 ^ 32 + x.toNat / 2 ^ (32 - r.toNat) := by
  have hr : r.toNat < 32 := r.isLt
  have hsplit : 2 ^ 32 = 2 ^ (32 - r.toNat) * 2 ^ r.toNat := by
    rw [← Nat.pow_add, Nat.sub_add_cancel hr.le]
  have hlow : x.toNat / 2 ^ (32 - r.toNat) < 2 ^ r.toNat := Nat.div_lt_of_lt_mul (hsplit ▸ x.isLt)
  have hhigh : x.toNat * 2 ^ r.toNat % 2 ^ 32 = 2 ^ r.toNat * (x.toNat % 2 ^ (32 - r.toNat)) := by
    rw [hsplit, Nat.mul_mod_mul_right, Nat.mul_comm]
  rw [rotl32, BitVec.toNat_rotateLeft, Nat.mod_eq_of_lt hr, Nat.shiftLeft_eq, Nat.shiftRight_eq_div_pow, hhigh,
    Nat.two_pow_add_eq_or_of_lt hlow]

/-- The arithmetic form at `r = 0`, where the part shifted down is 0. -/
theorem rotl32_zero (x : Word) : rotl32 x 0 = x := by
  apply BitVec.eq_of_toNat_eq
  have hx : x.toNat < 2 ^ 32 := x.isLt
  rw [rotl32_toNat, show (0 : BitVec 5).toNat = 0 from rfl]
  omega

/-- Settles O13: the arithmetic form holds at every amount, 0 included. -/
theorem rotationHasItsArithmeticForm : Obligations.RotationHasItsArithmeticForm :=
  fun x r => ⟨fun _ hi => getLsbD_rotl32 x r hi, fun _ => rotl32_toNat x r, rotl32_zero x⟩

/-- R113: of the product of two numbers in 16-bit halves, the product of the upper halves counts for nothing modulo 2^32, and of the middle products only the low halves count. -/
theorem mul_mod_eq_halves (aH aL bH bL : Nat) :
    (2 ^ 16 * aH + aL) * (2 ^ 16 * bH + bL) % 2 ^ 32 =
      (aL * bL + (aH * bL + aL * bH) % 2 ^ 16 * 2 ^ 16) % 2 ^ 32 := by
  calc (2 ^ 16 * aH + aL) * (2 ^ 16 * bH + bL) % 2 ^ 32
      = (aL * bL + (aH * bL + aL * bH) * 2 ^ 16 + 2 ^ 32 * (aH * bH)) % 2 ^ 32 := by ring_nf
    _ = (aL * bL + (aH * bL + aL * bH) * 2 ^ 16) % 2 ^ 32 := Nat.add_mul_mod_self_left ..
    _ = (aL * bL + (aH * bL + aL * bH) * 2 ^ 16 % (2 ^ 16 * 2 ^ 16)) % 2 ^ 32 := (Nat.add_mod_mod ..).symm
    _ = (aL * bL + (aH * bL + aL * bH) % 2 ^ 16 * 2 ^ 16) % 2 ^ 32 := by rw [Nat.mul_mod_mul_right]

/-- Settles O14: each factor is `2^16` times its upper half plus its lower half. -/
theorem productFromSixteenBitHalves : Obligations.ProductFromSixteenBitHalves := by
  intro a b aH aL bH bL
  have hhalves : a.toNat * b.toNat % 2 ^ 32 = (aL * bL + (aH * bL + aL * bH) % 2 ^ 16 * 2 ^ 16) % 2 ^ 32 := by
    rw [← mul_mod_eq_halves, Nat.div_add_mod, Nat.div_add_mod]
  exact ⟨mul32_toNat a b, (mul32_toNat a b).trans hhalves⟩

/-! ## The commands -/

/-- What every MIX command leaves: its result in MIX_Y, ERR = OK, and nothing else changed. -/
theorem complete_withMixY (s : State) (y : Word) :
    complete s (fun t => t.withMixY y) = .next { s with mixY := y, err := .ok } := rfl

/-- Settles O8: the result is `add32` of MIX_A and MIX_B. -/
theorem add32WritesTheWrappingSum : Obligations.Add32WritesTheWrappingSum :=
  ⟨decode_encode .add32, fun s => ⟨add32 s.mixA s.mixB, add32_toNat _ _, complete_withMixY s _⟩⟩

/-- Settles O9: the result is `xor32` of MIX_A and MIX_B. -/
theorem xor32WritesTheBitwiseXor : Obligations.Xor32WritesTheBitwiseXor :=
  ⟨decode_encode .xor32, fun s => ⟨xor32 s.mixA s.mixB, fun i _ => getLsbD_xor32 _ _ i, complete_withMixY s _⟩⟩

/-- Settles O10: the result is `mul32` of MIX_A and MIX_B. -/
theorem mul32WritesTheLowProduct : Obligations.Mul32WritesTheLowProduct :=
  ⟨decode_encode .mul32, fun s => ⟨mul32 s.mixA s.mixB, mul32_toNat _ _, complete_withMixY s _⟩⟩

/-- Settles O11: the result is `rotl32` of MIX_A by the low five bits of MIX_B, which are MIX_B mod 32. -/
theorem rotl32WritesTheRotation : Obligations.Rotl32WritesTheRotation := by
  refine ⟨decode_encode .rotl32, fun s => ⟨rotl32 s.mixA (shiftAmount s), fun i hi => ?_, complete_withMixY s _⟩⟩
  rw [getLsbD_rotl32 _ _ hi, shiftAmount_toNat]

/-- Settles O12: the result is `shr32` of MIX_A by the low five bits of MIX_B, which are MIX_B mod 32. -/
theorem shr32WritesTheQuotient : Obligations.Shr32WritesTheQuotient := by
  refine ⟨decode_encode .shr32, fun s => ⟨shr32 s.mixA (shiftAmount s), ?_, complete_withMixY s _⟩⟩
  rw [shr32_toNat, shiftAmount_toNat]

end Sys2Proof.Machine
end

section
/-! The block processor (R140 to R146): k-mixing and the block function with the rows of R141 written out, and the commands INIT and BLOCK. -/

namespace Sys2Proof.Machine

open Sys2Proof.Claims

/-! ## K-mixing -/

theorem zero_rotl32 (r : BitVec 5) : rotl32 0 r = 0 := by
  apply BitVec.eq_of_toNat_eq
  simp [rotl32_toNat]

/-- R142: neither a product nor a rotation leaves 0, whatever the lane's constants. -/
theorem kmix_zero (i : Lane) : kmix i 0 = 0 := by
  rw [kmix, mul32, mul32, zero_mul, zero_rotl32, zero_mul]

/-- R142: the word 1 leaves the first multiplier, so the rest is one rotation and one product of constants. -/
theorem kmix_l1_one : kmix .l1 1 = 0x9378f1b5 := by
  rw [kmix_l1, one_mul]
  decide

/-- Settles O19: 0 stays 0 at each of the three operations, and the word 1 in lane 1 is computed from the constants. -/
theorem kmixCornerCases : Obligations.KmixCornerCases := ⟨kmix_zero, kmix_l1_one⟩

/-! ## The commands -/

/-- R144 with the rows of R141 written out; the last lane adds the first as this pass leaves it (C3). -/
theorem block_eq_laneOf (h : Lanes) (k : KWords) : block h k =
    let h1' := laneOf 19 0x561ccd1b h.h1 (kmixOf 0x239b961b 0xab0e9789 15 k.k1) h.h2
    ⟨h1', laneOf 17 0x0bcaa747 h.h2 (kmixOf 0xab0e9789 0x38b34ae5 16 k.k2) h.h3,
      laneOf 15 0x96cd1c35 h.h3 (kmixOf 0x38b34ae5 0xa1e38b93 17 k.k3) h.h4,
      laneOf 13 0x32ac3b17 h.h4 (kmixOf 0xa1e38b93 0x239b961b 18 k.k4) h1'⟩ := by
  simp only [block, lanestep_l1, lanestep_l2, lanestep_l3, lanestep_l4, kmix_l1, kmix_l2, kmix_l3, kmix_l4, laneOf,
    kmixOf]

/-- What a command of the hash core leaves: its lanes in H1 to H4, ERR = OK, and nothing else changed. -/
theorem complete_withH (s : State) (x : Lanes) :
    complete s (fun t => t.withH x) = .next { s with h := x, err := .ok } := rfl

/-- Settles O15: the lanes written are SEED four times. -/
theorem initSetsEveryLaneToTheSeed : Obligations.InitSetsEveryLaneToTheSeed :=
  ⟨decode_encode .init, fun s => complete_withH s (seedLanes s.seed)⟩

/-- Settles O16: the lanes written are the block function's, by its form with the constants written out. -/
theorem blockMixesTheFourKWords : Obligations.BlockMixesTheFourKWords := by
  refine ⟨decode_encode .block, fun s => ?_⟩
  have hexec : exec .block s = .next { s with h := block s.h s.k, err := .ok } := complete_withH s (block s.h s.k)
  rw [hexec, block_eq_laneOf]

end Sys2Proof.Machine
end

section
/-! The tail handler (R160 to R163): TAIL with the rows of R141 written out, and the lanes HASH leaves equal for an input that reaches lane 1 only. -/

namespace Sys2Proof.Machine

open Sys2Proof.Claims

/-! ## TAIL -/

/-- R162 with the rows of R141 and the thresholds of R160 written out. -/
theorem tail_eq_kmixOf (h : Lanes) (k : KWords) (t : Nat) : tail h k t =
    ⟨if 0 < t then h.h1 ^^^ kmixOf 0x239b961b 0xab0e9789 15 k.k1 else h.h1,
      if 4 < t then h.h2 ^^^ kmixOf 0xab0e9789 0x38b34ae5 16 k.k2 else h.h2,
      if 8 < t then h.h3 ^^^ kmixOf 0x38b34ae5 0xa1e38b93 17 k.k3 else h.h3,
      if 12 < t then h.h4 ^^^ kmixOf 0xa1e38b93 0x239b961b 18 k.k4 else h.h4⟩ := by
  simp only [tail_eq, kmix_l1, kmix_l2, kmix_l3, kmix_l4, kmixOf]

/-- Settles O17: the lanes written are the tail function's at LEN mod 16, by its form with the constants written out. -/
theorem tailMixesTheActiveLanes : Obligations.TailMixesTheActiveLanes := by
  refine ⟨decode_encode .tail, fun s => ?_⟩
  have hexec : exec .tail s = .next { s with h := tail s.h s.k (tailCount s), err := .ok } := complete_withH s _
  rw [hexec, tail_eq_kmixOf, tailCount_eq]

/-! ## Inputs of at most four bytes -/

/-- 95 S3: lanes 2, 3 and 4 hold the same word. -/
def Lanes.UpperEqual (h : Lanes) : Prop := h.h2 = h.h3 ∧ h.h3 = h.h4

theorem upperEqual_seedLanes (seed : Word) : (seedLanes seed).UpperEqual := ⟨rfl, rfl⟩

/-- R160: with at most four bytes lane 1 alone is active, so the others are kept. -/
theorem Lanes.UpperEqual.tail {h : Lanes} (heq : h.UpperEqual) (k : KWords) {t : Nat} (ht : t ≤ 4) :
    (tail h k t).UpperEqual := by
  rwa [tail_eq, if_neg (by omega : ¬ 4 < t), if_neg (by omega : ¬ 8 < t), if_neg (by omega : ¬ 12 < t)]

theorem Lanes.UpperEqual.map {h : Lanes} (heq : h.UpperEqual) (f : Word → Word) : (h.map f).UpperEqual :=
  ⟨congrArg f heq.1, congrArg f heq.2⟩

/-- R183: lanes 2, 3 and 4 add the same new h1. -/
theorem Lanes.UpperEqual.cross {h : Lanes} (heq : h.UpperEqual) : (cross h).UpperEqual :=
  ⟨congrArg (add32 · _) heq.1, congrArg (add32 · _) heq.2⟩

/-- R184: every step of the finalization treats lanes 2, 3 and 4 alike. -/
theorem Lanes.UpperEqual.final {h : Lanes} (heq : h.UpperEqual) (len : Word) : (final h len).UpperEqual :=
  ((heq.map _).cross.map _).cross

/-- R203: up to four bytes hold no complete block, so the tail takes the lanes as the seed left them. -/
theorem upperEqual_hashLanes (m : Memory) {len : Word} (seed : Word) (hlen : len.toNat ≤ 4) :
    (hashLanes m len seed).UpperEqual := by
  have hblocks : hashBlocks m (seedLanes seed) (len.toNat / 16) = seedLanes seed := by
    rw [Nat.div_eq_of_lt (by omega), hashBlocks]
  have ht : len.toNat % 16 ≤ 4 := (Nat.mod_le _ _).trans hlen
  simp only [hashLanes, hblocks]
  exact ((upperEqual_seedLanes seed).tail _ ht).final len

/-- Settles O28: so short an input is in the range of every buffer, and HASH leaves `hashLanes` in H1 to H4. -/
theorem shortInputsLeaveThreeEqualLanes : Obligations.ShortInputsLeaveThreeEqualLanes := by
  intro s hlen
  have hfits : 16 + s.len.toNat ≤ s.cap := le_trans (by omega) s.cap_ge
  refine ⟨_, exec_hash_of_fits hfits, ?_⟩
  rw [State.withMem_h, State.withH_h]
  exact upperEqual_hashLanes s.mem s.seed hlen

end Sys2Proof.Machine
end

section
/-! The finalizer (R180 to R185): the cross-add, fmix32 and the finalization function with the constants of R181 written out, and the command FINAL. -/

namespace Sys2Proof.Machine

open Sys2Proof.Claims

/-! ## The functions -/

/-- R182 with the constants of R181: the shift amounts 16, 13 and 16 fit in five bits, so each is taken as it stands. -/
theorem fmix32_eq_fmixOf (h : Word) : fmix32 h = fmixOf h := rfl

/-- R183: lanes 2, 3 and 4 add the new h1. -/
theorem cross_eq_crossOf (h : Lanes) : cross h = crossOf h := rfl

/-- R184 in the written-out functions: the length xor, the cross-add, fmix32 lane by lane, the cross-add. -/
theorem final_eq_crossOf (h : Lanes) (len : Word) : final h len =
    crossOf ((crossOf (h.map (· ^^^ len))).map fmixOf) := by
  simp only [final, cross_eq_crossOf, funext fmix32_eq_fmixOf, xor32]

/-! ## The command -/

/-- Settles O18: the lanes written are the finalization function's at LEN, by its form in the written-out functions. -/
theorem finalMixesLengthAndLanes : Obligations.FinalMixesLengthAndLanes := by
  refine ⟨decode_encode .final, fun s => ?_⟩
  have hexec : exec .final s = .next { s with h := final s.h s.len, err := .ok } := complete_withH s _
  rw [hexec, final_eq_crossOf, Lanes.map, Lanes.map]

end Sys2Proof.Machine
end

section
/-! The sequencer (R200 to R208): what NOP, STOREH and HASH leave, and the hash of the empty input. -/

namespace Sys2Proof.Machine

open Sys2Proof.Claims

/-! ## NOP and STOREH -/

/-- Settles O20: the effect of NOP is the identity, so what is left is the completion of R250. -/
theorem nopOnlyClearsErr : Obligations.NopOnlyClearsErr := ⟨decode_encode .nop, fun _ => rfl⟩

/-- Settles O21: what STOREH stores is the header, and a header write ends before byte 16. -/
theorem storehWritesTheHeaderOnly : Obligations.StorehWritesTheHeaderOnly := by
  refine ⟨decode_encode .storeh, fun s => ?_⟩
  have hexec : exec .storeh s = .next ((s.withErr .ok).withMem (storeHeader s.mem s.h)) := rfl
  exact ⟨_, hexec, fun a ha => readByte_storeHeader _ _ ha, fun a ha => readByte_storeHeader_of_outside ha, rfl⟩

/-! ## HASH -/

/-- Settles O22: the range check comes first and raises its error in the state before the command. -/
theorem hashOutOfRangeOnlySetsRange : Obligations.HashOutOfRangeOnlySetsRange := by
  intro s hlt
  have hrange : hashOutOfRange s := hlt
  exact if_pos hrange

/-- R203: the block loop, the tail and the finalization, one after the other. -/
theorem hashLanes_eq (m : Memory) (len seed : Word) : hashLanes m len seed =
    final (tail (hashBlocks m (seedLanes seed) (len.toNat / 16))
      (tailWords m (16 + 16 * (len.toNat / 16)) (len.toNat % 16)) (len.toNat % 16)) len := rfl

/-- Settles O23: the block loop `hashBlocks` is the sequence of lanes, and the header is written with what the lanes end as. -/
theorem hashRunsBlocksTailAndFinalization : Obligations.HashRunsBlocksTailAndFinalization := by
  refine ⟨decode_encode .hash, hashOutOfRangeOnlySetsRange, fun s hfits => ?_⟩
  refine ⟨hashBlocks s.mem (seedLanes s.seed), _, rfl, fun b _ => rfl, ?_, fun a ha => readByte_storeHeader _ _ ha,
    fun a ha => readByte_storeHeader_of_outside ha, rfl, exec_hash_of_fits hfits⟩
  rw [State.withMem_h, State.withH_h, hashLanes_eq, tailWords_eq]

/-! ## The empty input -/

/-- R208: no byte makes a block or an active lane, so the seed goes straight to the finalization. -/
theorem hashLanes_zero (m : Memory) (seed : Word) : hashLanes m 0 seed = final (seedLanes seed) 0 := by
  have htail (h : Lanes) (k : KWords) : tail h k 0 = h := by simp [tail_eq]
  simp [hashLanes_eq, hashBlocks, htail]

/-- R184: every operation of the finalization takes zeros to zero. -/
theorem final_zero : final ⟨0, 0, 0, 0⟩ 0 = ⟨0, 0, 0, 0⟩ := by decide

theorem headerByte_zero (a : Nat) : headerByte ⟨0, 0, 0, 0⟩ a = 0 := by simp [headerByte, byteNat]

/-- Settles O27: the empty input is in the range of every buffer, and HASH leaves `hashLanes` in the lanes and the header. -/
theorem emptyInputHash : Obligations.EmptyInputHash := by
  intro s hlen
  have hfits : 16 + s.len.toNat ≤ s.cap := le_trans (by simp [hlen]) s.cap_ge
  have hlanes : hashLanes s.mem s.len s.seed = final (seedLanes s.seed) 0 := by rw [hlen, hashLanes_zero]
  refine ⟨_, exec_hash_of_fits hfits, hlanes, fun hseed => ?_⟩
  have hzero : hashLanes s.mem s.len s.seed = ⟨0, 0, 0, 0⟩ := by rw [hlanes, hseed, seedLanes, final_zero]
  refine ⟨hzero, fun a ha => BitVec.eq_of_toNat_eq ?_⟩
  rw [State.withMem_mem, readByte_storeHeader _ _ ha, hzero, headerByte_zero]
  rfl

end Sys2Proof.Machine
end

section
/-! HASH as a sequence of step commands (R207). What a list of statements does is a relation between states that holds whatever statements follow, so it composes over append; the blocks are then an induction on their number. -/

namespace Sys2Proof.Machine

/-! ## What a list of statements does, whatever follows it -/

/-- The statements `p` take `s` to `t`, the host program of neither counted: with any accesses behind those of `p`, the run comes to `t` with these left. -/
def Runs (p : List Stmt) (s t : State) : Prop :=
  ∀ rest, Host.Core.run Sys2Proof.core (expandProgram p).length (s.withHost (expandProgram p ++ rest)) =
    .next (t.withHost rest)

theorem Runs.append {p q : List Stmt} {s t u : State} (hp : Runs p s t) (hq : Runs q t u) : Runs (p ++ q) s u := by
  intro rest
  have hexpand : expandProgram (p ++ q) = expandProgram p ++ expandProgram q := List.flatMap_append
  rw [hexpand, List.length_append, List.append_assoc, run_add _ (hp _), hq]

/-- With nothing behind the statements this is the run of the whole host program (R293). -/
theorem Runs.runToEnd {p : List Stmt} {s t : State} (h : Runs p s t) :
    (s.withHost (expandProgram p)).runToEnd = .next (t.withHost []) := by
  have hrun := h []
  rwa [List.append_nil] at hrun

/-- A statement of one access does what that step does. -/
theorem Runs.of_step {c : Stmt} {op : HostOp} {s t : State} (hc : c.expand = [op])
    (h : ∀ rest, step (s.withHost (op :: rest)) = .next (t.withHost rest)) : Runs [c] s t := by
  intro rest
  have hexpand : expandProgram [c] = [op] := by simp [expandProgram, hc]
  rw [hexpand, List.length_singleton, List.singleton_append, run_succ (h rest), run_zero]

/-! ## CMD and SETK -/

/-- No command reads or writes the host program. -/
theorem exec_withHost {i : Instr} {s t : State} (h : exec i s = .next t) (p : List HostOp) :
    exec i (s.withHost p) = .next (t.withHost p) := by
  cases i with
  | hash =>
    by_cases hr : hashOutOfRange s
    · have hr' : hashOutOfRange (s.withHost p) := hr
      rw [exec, execHash, if_pos hr, raiseCmdError_eq_next] at h
      subst h
      exact if_pos hr'
    · have hfits : 16 + s.len.toNat ≤ s.cap := Nat.not_lt.1 hr
      have hfits' : 16 + (s.withHost p).len.toNat ≤ (s.withHost p).cap := hfits
      rw [exec_hash_of_fits hfits, Host.Outcome.next.injEq] at h
      subst h
      exact exec_hash_of_fits hfits'
  | _ => rw [← Host.Outcome.next.inj h]; rfl

theorem runs_cmd {i : Instr} {s t : State} (h : exec i s = .next t) : Runs [.cmd i] s t := by
  refine Runs.of_step rfl fun rest => ?_
  have hstep := stepRunsTheDecodedCommand (s.withHost (commandWrite (encode i) :: rest)) _ rest i rfl (decode_encode i)
  exact hstep.trans (exec_withHost h rest)

theorem Reg.offset_mod_four (r : Reg) : r.offset % 4 = 0 := by
  cases r with
  | hex j => simp only [Reg.offset]; omega
  | _ => rfl

theorem State.withHost_withHost (s : State) (p q : List HostOp) : (s.withHost p).withHost q = s.withHost q := rfl

theorem writeReg_withHost (s : State) (r : Reg) (v : Word) (p : List HostOp) :
    writeReg (s.withHost p) r v = (writeReg s r v).withHost p := by
  cases r <;> rfl

theorem runs_wr {r : Reg} (hr : r ≠ .cmd) (s : State) (v : Word) : Runs [.wr r v] s (writeReg s r v) := by
  refine Runs.of_step rfl fun rest => ?_
  rw [step_of_host (State.withHost_host ..), State.withHost_withHost, wr, hostStep,
    hostRegWrite_of_wf _ (r.offset_lt.trans (by decide)) r.offset_mod_four, writeOffset_offset _ hr, writeReg_withHost]

/-- SETK of the four words `k` (R88). -/
def setkOf (k : KWords) : Stmt := .setk k.k1 k.k2 k.k3 k.k4

/-- SETK is four register writes (R88), and they are all of K1 to K4. -/
theorem runs_setkOf (s : State) (k : KWords) : Runs [setkOf k] s (s.withK k) :=
  (((runs_wr (r := .k1) (by decide) s k.k1).append (runs_wr (r := .k2) (by decide) _ k.k2)).append
    (runs_wr (r := .k3) (by decide) _ k.k3)).append (runs_wr (r := .k4) (by decide) _ k.k4)

/-! ## The states of the sequence -/

/-- Where the sequence stands after some of its statements: no error, `k` in K1 to K4, `h` in H1 to H4, all else as in `s`. -/
def State.midHash (s : State) (k : KWords) (h : Lanes) : State := ((s.withErr .ok).withK k).withH h

theorem exec_init_eq_midHash (s : State) : exec .init s = .next (s.midHash s.k (seedLanes s.seed)) := rfl

section

variable (s : State) (k : KWords) (h : Lanes)

theorem withK_midHash (k' : KWords) : (s.midHash k h).withK k' = s.midHash k' h := rfl

theorem exec_block_midHash : exec .block (s.midHash k h) = .next (s.midHash k (block h k)) := rfl

theorem exec_tail_midHash : exec .tail (s.midHash k h) = .next (s.midHash k (tail h k (s.len.toNat % 16))) := by
  rw [← tailCount_eq]
  rfl

theorem exec_final_midHash : exec .final (s.midHash k h) = .next (s.midHash k (final h s.len)) := rfl

theorem exec_storeh_midHash :
    exec .storeh (s.midHash k h) = .next ((s.midHash k h).withMem (storeHeader s.mem h)) := rfl

theorem runs_setkOf_midHash (k' : KWords) : Runs [setkOf k'] (s.midHash k h) (s.midHash k' h) :=
  withK_midHash s k h k' ▸ runs_setkOf (s.midHash k h) k'

end

/-! ## The sequence -/

/-- SETK and BLOCK of the blocks 0 to `n - 1` (R207). -/
def blockStmts (m : Memory) (n : Nat) : List Stmt :=
  (List.range n).flatMap fun b => [setkOf (blockWords m b), .cmd .block]

theorem blockStmts_succ (m : Memory) (n : Nat) :
    blockStmts m (n + 1) = blockStmts m n ++ [setkOf (blockWords m n), .cmd .block] := by
  simp [blockStmts, List.range_succ]

/-- The statements of the blocks run the block loop of HASH; K1 to K4 keep the words of the last block, if there is one. -/
theorem runs_blockStmts (s : State) (k : KWords) (h : Lanes) (m : Memory) (n : Nat) :
    ∃ k', Runs (blockStmts m n) (s.midHash k h) (s.midHash k' (hashBlocks m h n)) := by
  induction n with
  | zero => exact ⟨k, fun _ => rfl⟩
  | succ n ih =>
    obtain ⟨k', hblocks⟩ := ih
    have hsetk := runs_setkOf_midHash s k' (hashBlocks m h n) (blockWords m n)
    have hblock := runs_cmd (exec_block_midHash s (blockWords m n) (hashBlocks m h n))
    exact ⟨blockWords m n, blockStmts_succ m n ▸ hblocks.append (hsetk.append hblock)⟩

/-- R207, cut where the state is known. -/
theorem stepCommandSequence_eq (m : Memory) (len : Word) : stepCommandSequence m len =
    [.cmd .init] ++ (blockStmts m (len.toNat / 16) ++
      ([setkOf (tailWords m (16 + 16 * (len.toNat / 16)) (len.toNat % 16))] ++
        ([.cmd .tail] ++ ([.cmd .final] ++ [.cmd .storeh])))) := by
  simp [stepCommandSequence, blockStmts, setkOf, payloadStart]

/-- R207: the sequence leaves the lanes HASH computes, in H1 to H4 and in the header, and the tail words in K1 to K4. -/
theorem runs_stepCommandSequence (s : State) :
    Runs (stepCommandSequence s.mem s.len) s
      ((s.midHash (tailWords s.mem (16 + 16 * (s.len.toNat / 16)) (s.len.toNat % 16))
        (hashLanes s.mem s.len s.seed)).withMem (storeHeader s.mem (hashLanes s.mem s.len s.seed))) := by
  obtain ⟨k', hblocks⟩ := runs_blockStmts s s.k (seedLanes s.seed) s.mem (s.len.toNat / 16)
  rw [stepCommandSequence_eq, hashLanes_eq]
  exact (runs_cmd (exec_init_eq_midHash s)).append <| hblocks.append <| (runs_setkOf_midHash s k' _ _).append <|
    (runs_cmd (exec_tail_midHash s _ _)).append <| (runs_cmd (exec_final_midHash s _ _)).append <|
    runs_cmd (exec_storeh_midHash s _ _)

/-- Settles O26: HASH and the sequence of step commands both leave `hashLanes` in the lanes and the header. -/
theorem hashEqualsTheStepCommandSequence : Obligations.HashEqualsTheStepCommandSequence := by
  intro s hfits
  exact ⟨_, exec_hash_of_fits hfits, (runs_stepCommandSequence s).runToEnd⟩

end Sys2Proof.Machine
end

section
/-! The command FORMAT (R230 to R233): the host reads the header's string at HEX0 to HEX10. -/

namespace Sys2Proof.Machine

open Sys2Proof.Claims

/-- R31: HEX_j lies at 0x40 + 4j. -/
theorem readOffset_hex (s : State) {j : Nat} (hj : j < 11) :
    readOffset s (0x40 + 4 * j) = s.hex.toList.getD j 0 := by
  have hread : readOffset s (0x40 + 4 * j) = s.hex[j] := readOffset_offset s (.hex ⟨j, hj⟩)
  simp [hread, hj]

/-- R232: what FORMAT leaves is the string of the words in memory, in HEX0 to HEX10, and ERR = OK. -/
theorem exec_format_eq (s : State) : exec .format s = .next ((s.withErr .ok).withHex
    (hexRegs (fmt (readWord s.mem 0) (readWord s.mem 4) (readWord s.mem 8) (readWord s.mem 12)))) := rfl

/-- Settles O29: the host reads byte `c` in HEX_(c div 4), and FORMAT leaves the string's character `c` there. -/
theorem formatWritesTheHexString : Obligations.FormatWritesTheHexString := by
  refine ⟨decode_encode .format, fun s => ⟨_, exec_format_eq s, fun c hc => ?_, rfl⟩⟩
  rw [readOffset_hex _ (by omega), State.withHex_hex]
  exact byteNat_hexRegs_fmt (fun j => readWord s.mem (4 * j)) hc

end Sys2Proof.Machine
end

section
/-! The exceptions (R250 to R258): an error is a code in ERR and never a stop, and the idle machine stays as it is. -/

namespace Sys2Proof.Machine

/-- Settles O40: R250 at every command but a HASH out of range, and there R251. -/
theorem everyCommandCompletes : Obligations.EveryCommandCompletes := by
  intro i s
  by_cases hrange : i = .hash ∧ hashOutOfRange s
  · obtain ⟨rfl, hlt⟩ := hrange
    exact ⟨_, hashOutOfRangeOnlySetsRange s hlt, .inl ⟨rfl, hlt, rfl⟩⟩
  · obtain ⟨t, hexec, hok⟩ := exec_err_ok hrange
    exact ⟨t, hexec, .inr ⟨hrange, hok⟩⟩

/-- Settles O6: with no host access left, the next access is none and keeps the state. -/
theorem idleStepChangesNothing : Obligations.IdleStepChangesNothing := by
  intro s hidle
  rw [step, nextAccess, hidle]

end Sys2Proof.Machine
end

section
/-! Reset, launch and the run of a whole host program (R280 to R293): where a machine begins, that well-formed accesses never stop it, and what the result of HASH depends on. -/

namespace Sys2Proof.Machine

/-! ## A step with a well-formed access goes on -/

theorem regAccessWf_iff {off width : Nat} : regAccessWf off width = true ↔ width = 4 ∧ off < 256 ∧ off % 4 = 0 := by
  simp [regAccessWf, and_assoc]

/-- R35, R50, R292: an access the spec gives a meaning is neither refused nor a fault, whatever the state. -/
theorem step_eq_next_of_wf {s : State} {op : HostOp} {rest : List HostOp} (hhost : s.host = op :: rest)
    (hwf : op.wf s.cap = true) : ∃ t, step s = .next t := by
  cases op with
  | regWrite off width v =>
    obtain ⟨rfl, hlt, h4⟩ := regAccessWf_iff.1 hwf
    rw [step_of_host hhost, hostStep, hostRegWrite_of_wf _ hlt h4]
    exact writeOffset_eq_next off v _
  | regRead off width =>
    obtain ⟨rfl, hlt, h4⟩ := regAccessWf_iff.1 hwf
    rw [step_of_host hhost, hostStep, hostRegRead_of_wf _ hlt h4]
    exact ⟨_, rfl⟩
  | memWrite a bs => exact ⟨_, step_memWrite hhost hwf⟩
  | memRead a n => exact ⟨_, step_memRead hhost hwf⟩

/-! ## A step takes one statement off the host program -/

/-- Running a command over its own host program changes nothing, so what it leaves holds that program too. -/
theorem exec_host {i : Instr} {s t : State} (h : exec i s = .next t) : t.host = s.host := by
  have hself : exec i s = .next (t.withHost s.host) := exec_withHost h s.host
  have ht : t = t.withHost s.host := Host.Outcome.next.inj (h.symm.trans hself)
  rw [ht, State.withHost_host]

@[simp] theorem writeReg_host (s : State) (r : Reg) (v : Word) : (writeReg s r v).host = s.host := by cases r <;> rfl

theorem step_host {s t : State} (h : step s = .next t) : t.host = s.host.tail := by
  obtain ⟨hidle, rfl⟩ | ⟨_, _, _, hhost, -, hexec⟩ | ⟨_, _, _, hhost, -, rfl⟩ | ⟨_, _, _, hhost, -, rfl⟩ |
    ⟨_, _, _, hhost, -, rfl⟩ | ⟨_, _, hhost, -, -, rfl⟩ | ⟨_, _, _, hhost, -, rfl⟩ | ⟨_, _, _, hhost, -, rfl⟩ :=
    step_cases h
  case inl => rw [hidle, List.tail_nil]
  case inr.inl => rw [exec_host hexec, hhost, State.withHost_host, List.tail_cons]
  all_goals simp [hhost, State.reply]

/-! ## The run of a host program -/

theorem step_cap {s t : State} (h : step s = .next t) : t.cap = s.cap := by
  obtain ⟨hcapacity, -⟩ := step_capacity_hex h
  rw [State.cap, hcapacity, State.cap]

/-- R293: by induction on the host program; a step keeps CAP, so the accesses left are well formed after it too. -/
theorem run_of_wf {prog : List HostOp} {s : State} (hhost : s.host = prog) (hwf : ∀ op ∈ prog, op.wf s.cap = true) :
    ∃ t, Host.Core.run Sys2Proof.core prog.length s = .next t ∧ t.host = [] := by
  induction prog generalizing s with
  | nil => exact ⟨s, run_zero s, hhost⟩
  | cons op rest ih =>
    obtain ⟨hop, hrest⟩ := List.forall_mem_cons.1 hwf
    obtain ⟨u, hstep⟩ := step_eq_next_of_wf hhost hop
    have huhost : u.host = rest := by rw [step_host hstep, hhost, List.tail_cons]
    rw [List.length_cons, run_succ hstep]
    exact ih huhost (step_cap hstep ▸ hrest)

/-- Settles O7: the run to the end has as many steps as the host program has accesses, and each step goes on. -/
theorem wellFormedHostProgramRunsToItsEnd : Obligations.WellFormedHostProgramRunsToItsEnd :=
  fun _ hwf => run_of_wf rfl hwf

/-! ## What the result of HASH depends on -/

/-- Settles O24: the lanes depend on SEED, LEN and the bytes HASH reads, and the header holds the lanes. -/
theorem hashDependsOnSeedLengthAndPayload : Obligations.HashDependsOnSeedLengthAndPayload := by
  intro s s' hseed hlen hfits hfits' hmem
  have hlanes : hashLanes s.mem s.len s.seed = hashLanes s'.mem s'.len s'.seed := by
    rw [← hseed, ← hlen]
    exact hashLanes_congr s.len s.seed hmem
  refine ⟨_, _, exec_hash_of_fits hfits, exec_hash_of_fits hfits', ?_, fun a ha => BitVec.eq_of_toNat_eq ?_⟩
  · rw [State.withMem_h, State.withH_h, State.withMem_h, State.withH_h, hlanes]
  · rw [State.withMem_mem, State.withMem_mem, readByte_storeHeader _ _ ha, readByte_storeHeader _ _ ha, hlanes]

/-! ## Reset and launch -/

/-- R280, R290: a reset leaves what a launch begins with, but for what the host has read so far. -/
theorem resetRegisters_eq_launch (s : State) :
    s.resetRegisters = (State.launch s.capacity s.mem s.host).withReplies s.replies := rfl

theorem readReg_withReplies (s : State) (rs : List HostReply) (r : Reg) :
    readReg (s.withReplies rs) r = readReg s r := by
  cases r <;> rfl

/-- Settles O44: the host reads after a reset what it reads after a launch, 0 everywhere but in CAPACITY. -/
theorem resetSetsRegistersAndKeepsMemory : Obligations.ResetSetsRegistersAndKeepsMemory := by
  intro s off
  refine ⟨readOffset_of_readReg_eq_zero (fun r hr => ?_) off, rfl⟩
  rw [resetRegisters_eq_launch, readReg_withReplies]
  exact readReg_launch _ _ _ r hr

/-- R38: HEX10 is 0 at launch, its byte 43 among it; the memory is the launch's. -/
theorem launch_inv {c : LogCap} {mem : Memory} (prog : List HostOp) (hmem : Memory.Fits (2 ^ c.m) mem) :
    (State.launch c mem prog).Inv := by
  obtain ⟨hform, hbound⟩ := hmem
  have hhex : (State.launch c mem prog).hex[10] = 0 := readReg_launch c mem prog (.hex 10) (by decide)
  refine ⟨hform, hbound, ?_⟩
  rw [hhex]
  decide

/-- Settles O45: `State.reset` is the launch over a memory that lists no byte. -/
theorem resetAndLaunchMeetTheInvariant : Obligations.ResetAndLaunchMeetTheInvariant :=
  ⟨launch_inv [] ⟨reset_memory_wf, List.forall_mem_nil _⟩, fun _ _ prog hwf hbound => launch_inv prog ⟨hwf, hbound⟩⟩

end Sys2Proof.Machine
end
